-- ==== Sys2Proof/Word.lean ====
section
/-! DEFINITION. The word types of the decoder: bytes, ticks and the word of the event port. -/

namespace Sys2Proof

/-- One byte of a frame, the source's `u8` (R7, R13). -/
abbrev Byte := BitVec 8

/-- A tick of the free-running microsecond counter, `u32`; `TICK_WIDTH` is fixed at 32 (R6, R171). Also the type of
a measured width, which lies in `0 .. 2^32 - 1` (R68, R80). -/
abbrev Tick := BitVec 32

/-- The word of the `ev` port: `level` in bits 33:32, `tick` in bits 31:0 (R61). -/
abbrev EvWord := BitVec 34

end Sys2Proof
end

