-- ==== Sys2Proof/Config.lean ====
section
/-! DEFINITION. The parameters of one instance (R6), the fixed constants beside them, and the one free value. -/

namespace Sys2Proof

/-- The four entries of the calibration profile table, under the spec's names (R149). -/
inductive ProfileName where
  | p11WideA
  | p11WideB
  | p11Narrow
  | p14Narrow
deriving DecidableEq, Repr

/-- Which edges of the line are reported to the decoder (R6, `EDGE_MODE`). -/
inductive EdgeMode where
  | rising
  | falling
  | both
deriving DecidableEq, Repr

/-- The parameters the spec leaves OPEN (R6, 92_eei_decisions.md section 6). Each is a constant of one instance,
"never written at run time". They are naturals, so that a set the spec refuses can be written down and is refused
(`Params.wellFormed`). -/
structure Params where
  /-- `PACKET_START_TICKS`: a high period above it starts a frame (R101). -/
  packetStartTicks : Nat
  /-- `BYTE_START_TICKS`: a high period above it, inside a frame, starts a byte (R102). -/
  byteStartTicks   : Nat
  /-- `WATCHDOG_MS`: the window the watchdog is armed with (R85, R115). -/
  watchdogMs       : Nat
  /-- `PIN`: names the GPIO line of this instance; no rule interprets it. -/
  pin              : Nat
  /-- `ENV_STALE_TIMEOUT`: may the environment deliver TIMEOUT while the watchdog is not armed (R129)? -/
  envStaleTimeout  : Bool
  /-- `driver_available`: does the EdgeEventSource's driver connection exist (R164)? -/
  driverAvailable  : Bool
  /-- `PROFILE`: used by the value conversion only (R149). -/
  profile          : ProfileName
deriving DecidableEq, Repr

namespace Config

/-- `DATA_BITS`, fixed by the source (R6). -/
abbrev dataBits : Nat := 8

/-- `BITS_PER_BYTE`, fixed by the source: 8 data bits and 1 parity bit (R6). -/
abbrev bitsPerByte : Nat := 9

/-- `EDGE_MODE`: both edges (R6, D31). -/
def edgeMode : EdgeMode := .both

/-- The defaults of R6. `pin` and `profile` have no default in the spec: DESIGN CHOICE, log entry 2. -/
def default : Params where
  packetStartTicks := 1000
  byteStartTicks   := 150
  watchdogMs       := 1
  pin              := 0
  envStaleTimeout  := false
  driverAvailable  := true
  profile          := .p11WideA

/-- FREE VALUE (93_implementation_defined.md U12, "any value, never read"; log entry 6): what the 32 value bits of
`calib` hold when a classification finds its valid flag 0, as a function of the width being classified. No state that
satisfies the invariant of R24 reads it. -/
opaque calibDontCare : Tick → Tick

end Config

end Sys2Proof
end

