-- ==== Sys2Proof/Syntax.lean ====
section
/-! DEFINITION. The input alphabet: the six operations of spec/opcode_table.json, and the words on the three input
ports that carry them. -/

namespace Sys2Proof

/-- The operations of the block, one constructor for each row of the operation map (R73). They take the place of
instructions (R2). -/
inductive Instr where
  /-- LOW: falling edge; a high period ended (R100). -/
  | low (tick : Tick)
  /-- HIGH: rising edge; a low pulse ended (R110). -/
  | high (tick : Tick)
  /-- TIMEOUT: the watchdog fired; the tick is carried and ignored (R125, R126). -/
  | timeout (tick : Tick)
  /-- STOP (R136). -/
  | stop
  /-- START (R135). -/
  | start
  /-- RESET (R190). -/
  | reset
deriving DecidableEq, Repr

/-- One input on one of the block's three input ports (R60): the word that accompanies the strobe. Only one port
is handled in a step (R46). -/
inductive PortInput where
  /-- A word on the `ev` port (R61). -/
  | ev (word : EvWord)
  /-- The bit on the `cmd` port: 0 = STOP, 1 = START (R63). -/
  | cmd (bit : BitVec 1)
  /-- The bit on the `rst` port: 1 = reset (R73). -/
  | rst (bit : BitVec 1)
deriving DecidableEq, Repr

/-- Is the operation an edge event or a TIMEOUT, that is, an input of the `ev` port (R61)? -/
def Instr.isEvent : Instr → Bool
  | .low _ => true
  | .high _ => true
  | .timeout _ => true
  | .stop => false
  | .start => false
  | .reset => false

end Sys2Proof
end

