-- ==== Sys2Proof/WellFormed.lean ====
section
/-! DEFINITION. What the spec calls a legal parameter set, a legal port word and a legal operation. -/

namespace Sys2Proof

/-- R6: `0 <= BYTE_START_TICKS < PACKET_START_TICKS < 2^32` and `WATCHDOG_MS >= 1`; any other set is refused (U16). -/
def Params.wellFormed (p : Params) : Bool :=
  decide (p.byteStartTicks < p.packetStartTicks)
    && decide (p.packetStartTicks < 2 ^ 32)
    && decide (1 ≤ p.watchdogMs)

/-- R69: the level code `0b11` is reserved, every tick and both `cmd` values are legal. R73: RESET is `rst = 1`. -/
def PortInput.wellFormed : PortInput → Bool
  | .ev w => decide (w.toNat / 2 ^ 32 ≠ 3)
  | .cmd _ => true
  | .rst b => decide (b = 1#1)

/-- Every operation is legal with every tick (R69, "Every `tick` value is legal"), in every run state (R170). -/
def Instr.wellFormed : Instr → Bool
  | .low _ => true
  | .high _ => true
  | .timeout _ => true
  | .stop => true
  | .start => true
  | .reset => true

end Sys2Proof
end

