-- ==== Sys2Proof/Decode.lean ====
section
/-! DEFINITION. From port words to operations and back: R61 to R63, R69, R73 and spec/opcode_table.json. -/

namespace Sys2Proof

/-- Why a port word carries no operation. -/
inductive DecodeError where
  /-- The event word's level field is the reserved code `0b11` (R69, U1). -/
  | reservedLevel
  /-- The `rst` bit is 0: no reset is requested (R73 gives RESET as `rst = 1`). -/
  | resetNotAsserted
deriving DecidableEq, Repr

/-- Bits 33:32 of the event word (R61). -/
def levelOf (w : EvWord) : BitVec 2 := w.extractLsb' 32 2

/-- Bits 31:0 of the event word (R61). -/
def tickOf (w : EvWord) : Tick := w.extractLsb' 0 32

/-- R62: the three level codes; R69: `0b11` is refused. -/
def decodeEvent (w : EvWord) : Except DecodeError Instr :=
  if levelOf w = 0b00#2 then .ok (.low (tickOf w))
  else if levelOf w = 0b01#2 then .ok (.high (tickOf w))
  else if levelOf w = 0b10#2 then .ok (.timeout (tickOf w))
  else .error .reservedLevel

/-- R63: `0` = STOP, `1` = START. -/
def decodeCommand (b : BitVec 1) : Instr :=
  if b = 1#1 then .start else .stop

/-- The operation a port word carries; total, refusing by name (R73). -/
def decode : PortInput → Except DecodeError Instr
  | .ev w => decodeEvent w
  | .cmd b => .ok (decodeCommand b)
  | .rst b => if b = 1#1 then .ok .reset else .error .resetNotAsserted

/-- The event word `level * 2^32 + tick` (R61). -/
def eventWord (level : BitVec 2) (tick : Tick) : EvWord := BitVec.ofNat 34 (level.toNat * 2 ^ 32 + tick.toNat)

/-- The port word of an operation (R61 to R63, R73). -/
def encode : Instr → PortInput
  | .low tick => .ev (eventWord 0b00#2 tick)
  | .high tick => .ev (eventWord 0b01#2 tick)
  | .timeout tick => .ev (eventWord 0b10#2 tick)
  | .stop => .cmd 0#1
  | .start => .cmd 1#1
  | .reset => .rst 1#1

/-- The port input that an opcode table word stands for. The table numbers each port's word from its bit 0 and does
not name the port in the word, so the port is told by the width: the 34-bit words (40 bits in whole bytes) are those
of `ev`, the 1-bit words (8 bits) those of `cmd`. The word `1` of RESET is the same one-bit word as that of START and
is read as START (log entry 4). -/
def tableInput (nbits w : Nat) : Option PortInput :=
  if nbits ≤ 8 then
    if w < 2 then some (.cmd (BitVec.ofNat 1 w)) else none
  else
    if w < 2 ^ 34 then some (.ev (BitVec.ofNat 34 w)) else none

/-- The operation the decoder reads from an opcode table word of `nbits` bits. -/
def decodeTableWord (nbits w : Nat) : Option Instr :=
  match tableInput nbits w with
  | none => none
  | some p => (decode p).toOption

end Sys2Proof
end

