-- ==== Sys2Proof/Machine/State.lean ====
section
/-! DEFINITION. The state: the record `S` of R10, the instance's parameters, the inputs waiting at the ports and the
outputs sent so far; the reasons to stop; the state after reset. -/

namespace Sys2Proof.Machine

/-- The coarse state of the decoder (R12). -/
inductive Phase where
  /-- No frame in progress. -/
  | idle
  /-- The first low pulse of a byte is awaited; it sets the calibration width. -/
  | awaitingByteCalibration
  /-- Bits are being received, or the byte has its nine bits and its boundary is awaited. -/
  | decodingBits
deriving DecidableEq, Repr

/-- The completion status of a Frame (R65). -/
inductive Status where
  | ok
  | parityError
  | bitCountError
deriving DecidableEq, Repr

/-- A Frame, `{bytes, status}` (R44). -/
structure Frame where
  bytes  : List Byte
  status : Status
deriving DecidableEq, Repr

/-- What the block sends out (R60, R67, R164), one item for each strobe. -/
inductive Output where
  /-- A Frame on the `frame` port (R44). -/
  | frame (f : Frame)
  /-- `arm_watchdog(PIN, ms)` on the `wd` port (R85). -/
  | wdArm (ms : Nat)
  /-- `disarm_watchdog(PIN)` on the `wd` port (R86). -/
  | wdDisarm
  /-- The failure DriverUnavailable, returned to the caller of START (R164). -/
  | driverUnavailable
deriving DecidableEq, Repr

/-- The record `S`: "the whole architectural state of one instance" (R10). -/
structure Decoder where
  /-- Subscribed to the EdgeEventSource (R11). -/
  started  : Bool
  /-- R12. -/
  phase    : Phase
  /-- The bytes of the frame in progress, the active byte last (R13). -/
  bytes    : List Byte
  /-- Bits received for the active byte since its calibration pulse, 0 to 9 (R14). -/
  bitCount : Nat
  /-- Count of 1-bits of the active byte, modulo 2 (R15). -/
  parity   : Bool
  /-- Calibration pulse width of the active byte (R16). -/
  calib    : Option Tick
  /-- Tick of the last LOW event since the last `Clear` (R17). -/
  lastLow  : Option Tick
  /-- Tick of the last HIGH event since the last `Clear` (R18). -/
  lastHigh : Option Tick
  /-- The watchdog is armed (R19). -/
  wdArmed  : Bool
deriving DecidableEq, Repr

/-- One instance with its surroundings. `params`, `inputs` and `out` are no fields of `S` (R29): the host's interface
gives the step no argument and no result but a state, so they stand here (log entries 1 and 3). -/
structure State where
  /-- The constants of the instance (R6); no step writes them. -/
  params : Params
  /-- The record `S` (R10). -/
  dec    : Decoder
  /-- The inputs the environment delivers, the next one first (R46, R90). -/
  inputs : List PortInput
  /-- The outputs sent so far, the oldest first (R48); no step reads them. -/
  out    : List Output
deriving DecidableEq, Repr

/-- The ways the machine faults. -/
inductive Fault where
  /-- Raised by `construct` only: construction "fails immediately (no partial/retryable state)" when the driver
  connection is unavailable (R164). No step faults. Safe. -/
  | driverUnavailable
deriving DecidableEq, Repr

/-- The ways the model refuses an input. -/
inductive Refusal where
  /-- Raised by `exec` for an operation that has no meaning yet. Safe. No arm raises it now. -/
  | notModelled (mnemonic : String)
  /-- Raised by the fetch of an event word whose level is the reserved code `0b11` (R69, U1). Safe. -/
  | reservedLevelCode
  /-- Raised by `construct`, and by the fetch in a state whose parameters R6 refuses (U16). Safe. -/
  | illFormedParameters
deriving DecidableEq, Repr

/-- The reset values of R10 and R28. -/
def Decoder.reset : Decoder where
  started  := false
  phase    := .idle
  bytes    := []
  bitCount := 0
  parity   := false
  calib    := none
  lastLow  := none
  lastHigh := none
  wdArmed  := false

/-- The machine right after reset (R28): every field of `S` at its reset value, the default parameters, no input
waiting and nothing sent yet. -/
def State.reset : State where
  params := Config.default
  dec    := Decoder.reset
  inputs := []
  out    := []

end Sys2Proof.Machine
end

