-- ==== Sys2Proof/Machine/Flags.lean ====
section
/-! DEFINITION. The parity computations and the codes of phase and status. -/

namespace Sys2Proof.Machine

/-- R114: adding a bit into the running parity, the count of 1-bits modulo 2. -/
def addParity (parity bit : Bool) : Bool := parity ^^ bit

/-- R41: the data bits of a byte in order of arrival, most significant first. -/
def dataBits (b : Byte) : List Bool :=
  [b.getLsbD 7, b.getLsbD 6, b.getLsbD 5, b.getLsbD 4, b.getLsbD 3, b.getLsbD 2, b.getLsbD 1, b.getLsbD 0]

/-- The number of 1-bits of a list of bits, modulo 2. -/
def parityOf (bits : List Bool) : Bool := bits.foldl addParity false

/-- R72: the bit that makes the nine bits of a byte hold an even number of 1s. -/
def evenParityBit (b : Byte) : Bool := parityOf (dataBits b)

/-- R65. -/
def statusCode : Status → BitVec 2
  | .ok => 0b00#2
  | .parityError => 0b01#2
  | .bitCountError => 0b10#2

/-- R66. -/
def phaseCode : Phase → BitVec 2
  | .idle => 0b00#2
  | .awaitingByteCalibration => 0b01#2
  | .decodingBits => 0b10#2

end Sys2Proof.Machine
end

