-- ==== Sys2Proof/Machine/Operands.lean ====
section
/-! DEFINITION. How the block assembles its operands (R68): widths, threshold tests and the bit of a low pulse. -/

namespace Sys2Proof.Machine

/-- R80: `(t1 - t0) mod 2^32`, the ticks from `t0` forward to `t1` on the wrapping counter. -/
def tickDiff (t0 t1 : Tick) : Tick := t1 - t0

/-- R68 item 1: the high-period width at a LOW event; none when no HIGH event was processed (R104). -/
def highWidth (s : State) (tick : Tick) : Option Tick := s.dec.lastHigh.map (tickDiff · tick)

/-- R68 item 1: the low-pulse width at a HIGH event; none when no LOW event was processed (R117). -/
def lowWidth (s : State) (tick : Tick) : Option Tick := s.dec.lastLow.map (tickDiff · tick)

/-- R87: `w > PACKET_START_TICKS`, unsigned and strict. -/
def exceedsPacketStart (s : State) (w : Tick) : Bool := decide (s.params.packetStartTicks < w.toNat)

/-- R87: `w > BYTE_START_TICKS`, unsigned and strict. -/
def exceedsByteStart (s : State) (w : Tick) : Bool := decide (s.params.byteStartTicks < w.toNat)

/-- The threshold a low pulse of width `lw` is compared with: `calib`, or the don't-care bits of that register in a
state that no run reaches (U12, log entry 6). -/
def calibWidth (s : State) (lw : Tick) : Tick := s.dec.calib.getD (Config.calibDontCare lw)

/-- R112: the bit is 1 if the pulse is shorter than the calibration width, otherwise 0. -/
def classifyBit (s : State) (lw : Tick) : Bool := decide (lw.toNat < (calibWidth s lw).toNat)

end Sys2Proof.Machine
end

