-- ==== Sys2Proof/Machine/Ops.lean ====
section
/-! DEFINITION. The shared micro-operations: clearing, flushing (the block's trap entry, R168), beginning a frame and a
byte, the watchdog commands, the writes of the tick registers and of one bit. -/

namespace Sys2Proof.Machine

/-- Send one item out, after everything sent before it (R48). -/
def send (o : Output) (s : State) : State := { s with out := s.out ++ [o] }

/-- The five accumulation fields at their cleared values (R82). -/
def clearAccumulation (d : Decoder) : Decoder :=
  { d with phase := .idle, bytes := [], bitCount := 0, parity := false, calib := none }

/-- R81: `Clear` resets every decoder field, the tick registers included, and emits nothing; `started` and `wd_armed`
are its callers' concern. -/
def clear (s : State) : State :=
  { s with dec := { clearAccumulation s.dec with lastLow := none, lastHigh := none } }

/-- R82: emit the frame in progress, if there is one, with the given status and clear the accumulation fields; keep
the tick registers, `started` and `wd_armed`. With an error status this is taking an exception (R160, R168). There is
no return operation beside it (R169): decoding begins again at a packet-start gap, by `beginFrame`. -/
def flush (status : Status) (s : State) : State :=
  let emitted := if s.dec.bytes.length ≥ 1 then send (.frame ⟨s.dec.bytes, status⟩) s else s
  { emitted with dec := clearAccumulation s.dec }

/-- R83: a new frame holding one empty byte. -/
def beginFrame (s : State) : State :=
  { s with dec := { s.dec with
      bytes := [0x00#8], phase := .awaitingByteCalibration, bitCount := 0, parity := false, calib := none } }

/-- R84: close the active byte as it is and append an empty one. `MAX_FRAME_BYTES` is ∞ (R6, R13). -/
def beginByte (s : State) : State :=
  { s with dec := { s.dec with
      bytes := s.dec.bytes ++ [0x00#8], phase := .awaitingByteCalibration, bitCount := 0, parity := false,
      calib := none } }

/-- R85: send `arm_watchdog` and set `wd_armed`. -/
def wdArm (ms : Nat) (s : State) : State :=
  send (.wdArm ms) { s with dec := { s.dec with wdArmed := true } }

/-- R86: send `disarm_watchdog` and clear `wd_armed`. The command is sent whether or not the watchdog is armed
(log entry 7). -/
def wdDisarm (s : State) : State :=
  send .wdDisarm { s with dec := { s.dec with wdArmed := false } }

/-- R105: the last action of a processed LOW event. -/
def recordLow (tick : Tick) (s : State) : State :=
  { s with dec := { s.dec with lastLow := some tick } }

/-- R118: the last action of a processed HIGH event. -/
def recordHigh (tick : Tick) (s : State) : State :=
  { s with dec := { s.dec with lastHigh := some tick } }

/-- R111: the first low pulse of a byte is its calibration pulse. -/
def calibrate (lw : Tick) (s : State) : State :=
  { s with dec := { s.dec with calib := some lw, phase := .decodingBits } }

/-- R113: `byte = byte*2 + bit`. -/
def shiftBit (b : Byte) (bit : Bool) : Byte := b * 2#8 + (BitVec.ofBool bit).setWidth 8

/-- R40: shift a bit into the last element, and into no other; an empty buffer has no element to write, in states
that no run reaches (log entry 6). -/
def shiftLast (bit : Bool) : List Byte → List Byte
  | [] => []
  | [b] => [shiftBit b bit]
  | b :: bs => b :: shiftLast bit bs

/-- R113, R114: while fewer than 8 data bits have been received the bit is shifted into the active byte; every
classified bit is counted and added into the parity. -/
def takeBit (bit : Bool) (s : State) : State :=
  { s with dec := { s.dec with
      bytes := if s.dec.bitCount < Config.dataBits then shiftLast bit s.dec.bytes else s.dec.bytes
      bitCount := s.dec.bitCount + 1
      parity := addParity s.dec.parity bit } }

/-- R88: an event is delivered only while the decoder is started; otherwise nothing happens (U2). -/
def whenStarted (handler : State → State) (s : State) : State :=
  if s.dec.started then handler s else s

end Sys2Proof.Machine
end

