-- ==== Sys2Proof/Machine/Control.lean ====
section
/-! DEFINITION. START, STOP, RESET, `is_started` and the construction of an instance (44_control_commands.md,
70_reset_and_hazards.md R190, 60_exceptions.md R164). -/

namespace Sys2Proof.Machine

/-- What START, STOP and RESET share: disarm, clear, set `started` (R135, R136, R190). -/
def restart (started : Bool) (s : State) : State :=
  let cleared := clear (wdDisarm s)
  { cleared with dec := { cleared.dec with started := started } }

/-- START (R135). Without a driver the failure is returned to the caller and nothing else happens (R164, U9). -/
def execStart (s : State) : Host.Outcome State Fault Refusal :=
  if s.params.driverAvailable then .next (restart true s) else .next (send .driverUnavailable s)

/-- STOP (R136). -/
def execStop (s : State) : Host.Outcome State Fault Refusal := .next (restart false s)

/-- RESET (R190). -/
def execReset (s : State) : Host.Outcome State Fault Refusal := .next (restart false s)

/-- R137: `is_started()`. -/
def isStarted (s : State) : Bool := s.dec.started

/-- Construction of an instance with the given parameters: refused for an ill-formed set (R6, U16), failing at once
without a driver (R164), otherwise the reset state (R28, R190). -/
def construct (p : Params) : Host.Outcome State Fault Refusal :=
  if !p.wellFormed then .refused .illFormedParameters
  else if !p.driverAvailable then .fault .driverUnavailable
  else .next { State.reset with params := p }

end Sys2Proof.Machine
end

