-- ==== Sys2Proof/Machine/HighEvent.lean ====
section
/-! DEFINITION. The HIGH event: calibration, bit accumulation, parity validation (42_high_event.md). -/

namespace Sys2Proof.Machine

/-- R115: when the bit counter has reached 9, an odd parity flushes the frame and an even one arms the watchdog. -/
def closeByte (s : State) : State :=
  if s.dec.bitCount = Config.bitsPerByte then
    if s.dec.parity then flush .parityError s else wdArm s.params.watchdogMs s
  else s

/-- R111 to R117: what the low pulse that just ended means. -/
def lowPulse (width : Option Tick) (s : State) : State :=
  match width with
  | none => s
  | some lw =>
    match s.dec.phase with
    | .idle => s
    | .awaitingByteCalibration => calibrate lw s
    | .decodingBits =>
      if s.dec.bitCount ≥ Config.bitsPerByte then flush .bitCountError s
      else closeByte (takeBit (classifyBit s lw) s)

/-- R110: `OnHigh`. -/
def onHigh (tick : Tick) (s : State) : State :=
  recordHigh tick (lowPulse (lowWidth s tick) (wdDisarm s))

/-- HIGH (R110), delivered only while started (R88). -/
def execHigh (tick : Tick) (s : State) : Host.Outcome State Fault Refusal :=
  .next (whenStarted (onHigh tick) s)

end Sys2Proof.Machine
end

