-- ==== Sys2Proof/Machine/LowEvent.lean ====
section
/-! DEFINITION. The LOW event: frame synchronisation (41_low_event.md). -/

namespace Sys2Proof.Machine

/-- R101 to R104: what the high period that just ended means. -/
def syncOnGap (width : Option Tick) (s : State) : State :=
  match width with
  | none => s
  | some hw =>
    if exceedsPacketStart s hw then beginFrame (flush .ok s)
    else if exceedsByteStart s hw && decide (s.dec.phase ≠ .idle) then
      if s.dec.bitCount = Config.bitsPerByte then beginByte s else flush .bitCountError s
    else s

/-- R100: `OnLow`. -/
def onLow (tick : Tick) (s : State) : State :=
  recordLow tick (syncOnGap (highWidth s tick) (wdDisarm s))

/-- LOW (R100), delivered only while started (R88). -/
def execLow (tick : Tick) (s : State) : Host.Outcome State Fault Refusal :=
  .next (whenStarted (onLow tick) s)

end Sys2Proof.Machine
end

