-- ==== Sys2Proof/Machine/TimeoutEvent.lean ====
section
/-! DEFINITION. The TIMEOUT event (43_timeout_and_watchdog.md). -/

namespace Sys2Proof.Machine

/-- R125: `OnTimeout`, unconditional; no disarm command is sent, the one-shot watchdog has fired. -/
def onTimeout (s : State) : State :=
  let flushed := flush .ok s
  { flushed with dec := { flushed.dec with wdArmed := false } }

/-- TIMEOUT (R125), delivered only while started (R88); the tick is ignored (R126). -/
def execTimeout (_tick : Tick) (s : State) : Host.Outcome State Fault Refusal :=
  .next (whenStarted onTimeout s)

end Sys2Proof.Machine
end

