-- ==== Sys2Proof/Machine/Dispatch.lean ====
section
/-! DEFINITION. One arm for each operation (R88). -/

namespace Sys2Proof.Machine

def exec (i : Instr) (s : State) : Host.Outcome State Fault Refusal :=
  match i with
  | .low tick => Sys2Proof.Machine.execLow tick s
  | .high tick => Sys2Proof.Machine.execHigh tick s
  | .timeout tick => Sys2Proof.Machine.execTimeout tick s
  | .stop => Sys2Proof.Machine.execStop s
  | .start => Sys2Proof.Machine.execStart s
  | .reset => Sys2Proof.Machine.execReset s

end Sys2Proof.Machine
end

