-- ==== Sys2Proof/Machine/Fetch.lean ====
section
/-! DEFINITION. Taking the next input from the ports (R46, R60, R69). -/

namespace Sys2Proof.Machine

/-- What the ports hold for the next step. -/
inductive Fetched where
  /-- No operation is requested; the block waits in the state given (R28, R88). -/
  | idle (s : State)
  /-- The input is refused by name. -/
  | refuse (r : Refusal)
  /-- The operation, and the state with its input taken. -/
  | run (i : Instr) (s : State)
deriving DecidableEq, Repr

/-- Take the first waiting input. A parameter set that R6 refuses is no instance of this hardware (U16); the level
code `0b11` is refused (R69); with no input waiting, or with the `rst` bit at 0, the block waits (log entry 5). -/
def fetch (s : State) : Fetched :=
  if s.params.wellFormed then
    match s.inputs with
    | [] => .idle s
    | p :: rest =>
      match decode p with
      | .ok i => .run i { s with inputs := rest }
      | .error .reservedLevel => .refuse .reservedLevelCode
      | .error .resetNotAsserted => .idle { s with inputs := rest }
  else .refuse .illFormedParameters

/-- `s` with the port input of an opcode table word waiting before all others. -/
def placeWord (s : State) (nbits w : Nat) : State :=
  match tableInput nbits w with
  | none => s
  | some p => { s with inputs := p :: s.inputs }

end Sys2Proof.Machine
end

