-- ==== Sys2Proof/Machine/Step.lean ====
section
/-! DEFINITION. One step: one input, handled atomically (R46, R88). -/

namespace Sys2Proof.Machine

/-- R88: `Step`. -/
def step (s : State) : Host.Outcome State Fault Refusal :=
  match fetch s with
  | .idle s' => .next s'
  | .refuse r => .refused r
  | .run i s' => exec i s'

/-- `s` with an opcode table word as the input that the very next step takes. -/
def State.withFetchWord (s : State) (nbits w : Nat) : State := placeWord s nbits w

end Sys2Proof.Machine
end

