-- ==== Sys2Proof/Machine/System.lean ====
section
/-! DEFINITION. Several instances, one for each GPIO line (R174). -/

namespace Sys2Proof.Machine

/-- R174: "the state of a system of `n` instances is the product of `n` states". -/
abbrev System := List State

/-- R174: the instances listen to different lines. -/
def System.pinsDistinct (sys : System) : Bool := decide ((sys.map fun s => s.params.pin).Nodup)

/-- The system after one step of instance `k`; none when there is no such instance, or when its step gives no next
state. -/
def System.stepInstance (k : Nat) (sys : System) : Option System :=
  match sys[k]? with
  | none => none
  | some s =>
    match step s with
    | .next t => some (sys.set k t)
    | .fault _ => none
    | .refused _ => none

/-- The system after a schedule: in each entry, the instance of that number takes one step (R174, "any interleaving of
their steps"). -/
def System.run : List Nat → System → Option System
  | [], sys => some sys
  | k :: ks, sys =>
    match sys.stepInstance k with
    | none => none
    | some sys' => System.run ks sys'

end Sys2Proof.Machine
end

