-- ==== Sys2Proof/Machine/Binary64.lean ====
section
/-! DEFINITION. IEEE 754 binary64 arithmetic as R151 fixes it: the exact result rounded to nearest, ties to even. A
binary64 number is held as the rational it denotes. -/

namespace Sys2Proof.Machine

/-- `2^e` as a rational. -/
def pow2 (e : Int) : Rat := if 0 ≤ e then ((2 ^ e.toNat : Nat) : Rat) else 1 / ((2 ^ (-e).toNat : Nat) : Rat)

/-- The exponent `e` with `2^e ≤ |x| < 2^(e+1)`, for `x` not 0. -/
def binaryExponent (x : Rat) : Int :=
  let l : Int := (x.num.natAbs.log2 : Int) - (x.den.log2 : Int)
  if |x| < pow2 l then l - 1 else l

/-- The nearest integer, the even one of two equally near ones. -/
def roundNearestEven (y : Rat) : Int :=
  let q := y.floor
  let r := y - (q : Rat)
  if r < 1 / 2 then q
  else if 1 / 2 < r then q + 1
  else if q % 2 = 0 then q else q + 1

/-- The binary64 number nearest to `x`, ties to even: 53 significant bits. The exponent is not bounded: "no NaN,
infinity, subnormal, overflow or underflow can arise" in the conversion (R151, log entry 9). -/
def roundBinary64 (x : Rat) : Rat :=
  if x = 0 then 0
  else
    let ulp := pow2 (binaryExponent x - 52)
    (roundNearestEven (x / ulp) : Rat) * ulp

/-- The binary64 bit pattern of a number in the normal range: sign, biased exponent, fraction. -/
def binary64Bits (x : Rat) : BitVec 64 :=
  if x = 0 then 0#64
  else
    let e := binaryExponent x
    let significand := (|x| / pow2 (e - 52)).floor.toNat
    let sign : Nat := if x < 0 then 1 else 0
    BitVec.ofNat 64 (sign * 2 ^ 63 + (e + 1023).toNat * 2 ^ 52 + (significand - 2 ^ 52))

end Sys2Proof.Machine
end

