-- ==== Sys2Proof/Machine/Conversion.lean ====
section
/-! DEFINITION. The combinational follower of the Frame output: which Frames yield a Measurement, and its temperature
(45_value_conversion.md). It holds no state and the decoder never reads its result (R145). -/

namespace Sys2Proof.Machine

/-- A SensorCalibrationProfile (R149); temperatures in degrees Celsius. -/
structure CalibrationProfile where
  bitWidth : Nat
  lowTemp  : Int
  highTemp : Int
deriving DecidableEq, Repr

/-- The profile table (R149). -/
def profileEntry : ProfileName → CalibrationProfile
  | .p11WideA => ⟨11, -50, 150⟩
  | .p11WideB => ⟨11, -50, 150⟩
  | .p11Narrow => ⟨11, -10, 60⟩
  | .p14Narrow => ⟨14, -10, 60⟩

/-- The divisor `2^bit_width - 1` (R149, R150). -/
def divisor (p : ProfileName) : Nat := 2 ^ (profileEntry p).bitWidth - 1

/-- R146: `Accept(F) = (F.status = OK) and (len(F.bytes) = 2)`. -/
def accept (f : Frame) : Bool := decide (f.status = .ok) && decide (f.bytes.length = 2)

/-- R148: `raw = byte0*256 + byte1`, without a mask. -/
def rawValue (byte0 byte1 : Byte) : Nat := byte0.toNat * 256 + byte1.toNat

/-- The raw value of an accepted Frame; no other Frame has one (R145, U13). -/
def rawOf (f : Frame) : Option Nat :=
  if accept f then
    match f.bytes with
    | [byte0, byte1] => some (rawValue byte0 byte1)
    | _ => none
  else none

/-- R150: the exact value. `raw` is not range-checked (R152). -/
def convert (p : ProfileName) (raw : Nat) : Rat :=
  (raw : Rat) / (divisor p : Rat) * (((profileEntry p).highTemp - (profileEntry p).lowTemp : Int) : Rat)
    + ((profileEntry p).lowTemp : Rat)

/-- R151: the `f64` value, in the order written, each operation rounded. -/
def convertF64 (p : ProfileName) (raw : Nat) : Rat :=
  let q := roundBinary64 ((raw : Rat) / (divisor p : Rat))
  let m := roundBinary64 (q * (((profileEntry p).highTemp - (profileEntry p).lowTemp : Int) : Rat))
  roundBinary64 (m + ((profileEntry p).lowTemp : Rat))

/-- R146, R154: the `temperature_celsius` of the Measurement that a Frame yields, none when it yields no Measurement. -/
def temperatureOf (p : ProfileName) (f : Frame) : Option Rat := (rawOf f).map (convertF64 p)

end Sys2Proof.Machine
end

