-- ==== Sys2Proof/Machine/Trace.lean ====
section
/-! DEFINITION. Traces (R90), what they send out, and the trace notation with its two generators of well-formed byte
and packet sequences (R71, R72). -/

namespace Sys2Proof.Machine

/-- R90: the fold of the operations of a trace over a state. -/
def execTrace : List Instr → State → Host.Outcome State Fault Refusal
  | [], s => .next s
  | i :: is, s =>
    match exec i s with
    | .next t => execTrace is t
    | .fault r => .fault r
    | .refused r => .refused r

/-- The Frame an output carries, if it is one. -/
def Output.frame? : Output → Option Frame
  | .frame f => some f
  | .wdArm _ => none
  | .wdDisarm => none
  | .driverUnavailable => none

/-- The Frames among a list of outputs, in order (R48, R90). -/
def framesOf (o : List Output) : List Frame := o.filterMap Output.frame?

/-- The watchdog commands among a list of outputs, in order (R67, R90). -/
def watchdogCommands (o : List Output) : List Output :=
  o.filter fun x => match x with
    | .wdArm _ => true
    | .wdDisarm => true
    | .frame _ => false
    | .driverUnavailable => false

/-- What was sent between two states, the second reached from the first. -/
def sentBetween (s t : State) : List Output := t.out.drop s.out.length

/-- The `frame` port in one step (R64). -/
structure FramePort where
  valid  : Bool
  status : BitVec 2
  len    : Nat
  bytes  : List Byte
deriving DecidableEq, Repr

/-- R64: the strobe is 1 in exactly the steps that emit; none stands for the strobe at 0, when the other fields mean
nothing. -/
def framePort (o : List Output) : Option FramePort :=
  (framesOf o).head?.map fun f => ⟨true, statusCode f.status, f.bytes.length, f.bytes⟩

/-- The temperatures of the Measurements that the Frames sent so far yield, in order (R146). -/
def temperatures (s : State) : List Rat := (framesOf s.out).filterMap (temperatureOf s.params.profile)

/-- The notation of one operation on a line of a trace (R71). -/
def traceLine : Instr → String
  | .low tick => "L " ++ toString tick.toNat
  | .high tick => "H " ++ toString tick.toNat
  | .timeout tick => "T " ++ toString tick.toNat
  | .stop => "STOP"
  | .start => "START"
  | .reset => "RESET"

/-- A timing profile of R72: the widths of the calibration pulse, of the low pulse of a 1 and of a 0, and the bit
window. -/
structure Timing where
  c    : Nat
  one  : Nat
  zero : Nat
  win  : Nat
deriving DecidableEq, Repr

/-- The profile TV of R72. -/
def tv : Timing := ⟨60, 30, 90, 120⟩

/-- The low width that carries a bit (R72). -/
def pulseWidth (p : Timing) (bit : Bool) : Nat := if bit then p.one else p.zero

/-- A tick some number of ticks later; tick arithmetic in a trace is modulo `2^32` (R71). -/
def later (t : Tick) (n : Nat) : Tick := t + BitVec.ofNat 32 n

/-- The pairs of events of a run of bit pulses, the first LOW at `t` (R72). -/
def bitPulses (p : Timing) (t : Tick) : List Bool → List Instr
  | [] => []
  | d :: ds => .low t :: .high (later t (pulseWidth p d)) :: bitPulses p (later t p.win) ds

/-- `BYTE(t, b, par)` of R72: calibration pulse, eight data bits, the parity bit given. -/
def byteTraceWith (p : Timing) (t : Tick) (b : Byte) (par : Bool) : List Instr :=
  .low t :: .high (later t p.c) :: bitPulses p (later t (2 * p.c)) (dataBits b ++ [par])

/-- `BYTE(t, b)` of R72, with the even-parity bit. -/
def byteTrace (p : Timing) (t : Tick) (b : Byte) : List Instr := byteTraceWith p t b (evenParityBit b)

/-- `BYTE(t, b)[k bits]` of R72. -/
def byteTraceBits (p : Timing) (t : Tick) (b : Byte) (k : Nat) : List Instr := (byteTrace p t b).take (2 + 2 * k)

/-- The end tick of `BYTE(t, b, par)`: the tick of its last HIGH event (R72). -/
def byteEndWith (p : Timing) (t : Tick) (par : Bool) : Tick := later t (2 * p.c + 8 * p.win + pulseWidth p par)

/-- The end tick of `BYTE(t, b)` (R72). -/
def byteEnd (p : Timing) (t : Tick) (b : Byte) : Tick := byteEndWith p t (evenParityBit b)

/-- The end tick of `BYTE(t, b)[k bits]`: the tick of the last HIGH event kept, that of the calibration pulse where no bit
is kept (R72). -/
def byteBitsEnd (p : Timing) (t : Tick) (b : Byte) (k : Nat) : Tick :=
  let kept := (dataBits b ++ [evenParityBit b]).take k
  match kept.getLast? with
  | none => later t p.c
  | some d => later t (2 * p.c + (kept.length - 1) * p.win + pulseWidth p d)

/-- The inter-byte high period that `PACKET` takes where none is given (R72). -/
def defaultGap : Nat := 200

/-- `PACKET(t, bs, g)` of R72; `g` defaults to 200. -/
def packetTrace (p : Timing) (t : Tick) (bs : List Byte) (g : Nat := defaultGap) : List Instr :=
  match bs with
  | [] => []
  | b :: bs => byteTrace p t b ++ packetTrace p (later (byteEnd p t b) g) bs g

/-- The end tick of `PACKET(t, bs, g)`: that of its last byte (R72); `t` for an empty packet. -/
def packetEnd (p : Timing) (t : Tick) (bs : List Byte) (g : Nat := defaultGap) : Tick :=
  match bs with
  | [] => t
  | [b] => byteEnd p t b
  | b :: b' :: bs => packetEnd p (later (byteEnd p t b) g) (b' :: bs) g

/-- One low pulse on the line with the high period before it, of any two widths (R70). -/
structure Pulse where
  high : Nat
  low  : Nat
deriving DecidableEq, Repr

/-- The pairs of events of a run of pulses, after a HIGH event at `h`: each LOW ends a high period, each HIGH a low
pulse (R70). -/
def pulseEvents (h : Tick) : List Pulse → List Instr
  | [] => []
  | p :: ps => .low (later h p.high) :: .high (later h (p.high + p.low)) :: pulseEvents (later h (p.high + p.low)) ps

/-- The tick of the last HIGH event of a run of pulses; `h` for none. -/
def pulsesEnd (h : Tick) : List Pulse → Tick
  | [] => h
  | p :: ps => pulsesEnd (later h (p.high + p.low)) ps

/-- A byte on the line (R70 items 2 and 3): the byte meant, its calibration pulse behind the gap that begins the byte,
and its bit pulses. -/
structure SentByte where
  byte  : Byte
  start : Pulse
  bits  : List Pulse
deriving DecidableEq, Repr

/-- The pulses of a packet, in order (R70). -/
def packetPulses (bs : List SentByte) : List Pulse := bs.flatMap fun b => b.start :: b.bits

end Sys2Proof.Machine
end

