-- ==== Sys2Proof/Safety.lean ====
section
/-! DEFINITION. The terms claims use: the invariants of R24, what the environment may do (R128, R129, R131, R177), the
end of a run (R193), and shifting every tick by one amount (R27, R171). -/

namespace Sys2Proof.Machine

/-- The active byte of a decoder, the last element of `bytes` (R13); 0 when there is none. -/
abbrev Decoder.activeByte (d : Decoder) : Byte := d.bytes.getLastD 0#8

/-- R24 item 1. -/
abbrev IdleIffEmpty (d : Decoder) : Prop := d.phase = .idle ↔ d.bytes = []

/-- R24 item 2. -/
abbrev IdleCleared (d : Decoder) : Prop :=
  d.phase = .idle → d.bitCount = 0 ∧ d.parity = false ∧ d.calib = none

/-- R24 item 3. -/
abbrev AwaitingCleared (d : Decoder) : Prop :=
  d.phase = .awaitingByteCalibration →
    d.bitCount = 0 ∧ d.parity = false ∧ d.calib = none ∧ d.bytes ≠ [] ∧ d.activeByte = 0#8

/-- R24 item 4. -/
abbrev DecodingCalibrated (d : Decoder) : Prop :=
  d.phase = .decodingBits → d.calib.isSome = true ∧ d.bytes ≠ [] ∧ d.bitCount ≤ 9

/-- R24 item 5. -/
abbrev CompleteByteEven (d : Decoder) : Prop :=
  d.phase = .decodingBits → d.bitCount = 9 → d.parity = false

/-- R24 item 6, with the parity said of the bits of the active byte: for at most 8 bits received these are the bits
received, the others being 0. -/
abbrev PartialByteBounded (d : Decoder) : Prop :=
  d.phase = .decodingBits → d.bitCount ≤ 8 →
    d.activeByte.toNat < 2 ^ d.bitCount ∧ d.parity = parityOf (dataBits d.activeByte)

/-- R24 item 7. -/
abbrev FrameHasTicks (d : Decoder) : Prop :=
  d.phase ≠ .idle → d.lastLow.isSome = true ∧ d.lastHigh.isSome = true

/-- R24 item 8. -/
abbrev ArmedAtCompleteByte (d : Decoder) : Prop :=
  d.wdArmed = true → d.phase = .decodingBits ∧ d.bitCount = 9

/-- R24 item 9. -/
abbrev StoppedCleared (d : Decoder) : Prop :=
  d.started = false → d.phase = .idle ∧ d.lastLow = none ∧ d.lastHigh = none ∧ d.wdArmed = false

/-- R164: an instance without a driver never starts. -/
abbrev StartedHasDriver (s : State) : Prop := s.dec.started = true → s.params.driverAvailable = true

/-- R44: every Frame sent has at least one byte. -/
abbrev FramesNonempty (s : State) : Prop := ∀ f ∈ framesOf s.out, f.bytes ≠ []

/-- The invariants of R24 that are properties of one state (items 1 to 9). -/
abbrev Decoder.Inv (d : Decoder) : Prop :=
  IdleIffEmpty d ∧ IdleCleared d ∧ AwaitingCleared d ∧ DecodingCalibrated d ∧ CompleteByteEven d ∧
    PartialByteBounded d ∧ FrameHasTicks d ∧ ArmedAtCompleteByte d ∧ StoppedCleared d

/-- The invariant of a state. -/
abbrev State.Inv (s : State) : Prop := s.dec.Inv ∧ StartedHasDriver s ∧ FramesNonempty s

/-- What a flush sends in a state: the frame in progress with the given status, if there is one (R82). -/
def pendingFrame (s : State) (status : Status) : List Output :=
  if s.dec.bytes = [] then [] else [.frame ⟨s.dec.bytes, status⟩]

/-- The Frames that a state's last operation, run from `s`, has sent (R44, R64). -/
def emitted (s t : State) : List Frame := framesOf (sentBetween s t)

/-- What the environment may deliver in a state: edges while started, TIMEOUT while the watchdog is armed or, with
`ENV_STALE_TIMEOUT`, in any started state; commands and reset at any time (R128, R129, R177). -/
def envMay (s : State) : Instr → Bool
  | .low _ => s.dec.started
  | .high _ => s.dec.started
  | .timeout _ => s.dec.started && (s.dec.wdArmed || s.params.envStaleTimeout)
  | .stop => true
  | .start => true
  | .reset => true

/-- A trace a conforming environment may deliver from a state (R177). -/
def conforming : List Instr → State → Bool
  | [], _ => true
  | i :: is, s =>
    envMay s i && match exec i s with
      | .next t => conforming is t
      | .fault _ => true
      | .refused _ => true

/-- The tick of the first edge of a trace, before any command. -/
def nextEdge : List Instr → Option Tick
  | [] => none
  | .low tick :: _ => some tick
  | .high tick :: _ => some tick
  | .timeout _ :: is => nextEdge is
  | .stop :: _ => none
  | .start :: _ => none
  | .reset :: _ => none

/-- R131 at one moment: while the watchdog is armed by a HIGH event at tick `t`, a TIMEOUT comes next exactly if the
next edge is at least `1000 * WATCHDOG_MS` ticks after `t`. -/
def wellTimedNext (s : State) (is : List Instr) : Bool :=
  match s.dec.wdArmed, s.dec.lastHigh, nextEdge is, is with
  | true, some t, some edge, .timeout _ :: _ => decide (1000 * s.params.watchdogMs ≤ (tickDiff t edge).toNat)
  | true, some t, some edge, _ => decide ((tickDiff t edge).toNat < 1000 * s.params.watchdogMs)
  | _, _, _, _ => true

/-- R131 along a trace: a well-timed environment. -/
def wellTimed : List Instr → State → Bool
  | [], _ => true
  | i :: is, s =>
    wellTimedNext s (i :: is) && match exec i s with
      | .next t => wellTimed is t
      | .fault _ => true
      | .refused _ => true

/-- R193: no TIMEOUT is outstanding. -/
def quiescent (s : State) : Bool := !s.dec.wdArmed

/-- R193: quiescent, and no frame is in progress. -/
def complete (s : State) : Bool := quiescent s && decide (s.dec.phase = .idle)

/-- A safe step: it neither faults nor is refused. -/
def SafeStep (s : State) : Prop := ∃ t, step s = .next t

/-- An operation with its tick moved by `c`. -/
def shiftTick (c : Tick) : Instr → Instr
  | .low tick => .low (tick + c)
  | .high tick => .high (tick + c)
  | .timeout tick => .timeout (tick + c)
  | .stop => .stop
  | .start => .start
  | .reset => .reset

/-- A state with both tick registers moved by `c`. -/
def State.shift (c : Tick) (s : State) : State :=
  { s with dec := { s.dec with lastLow := s.dec.lastLow.map (· + c), lastHigh := s.dec.lastHigh.map (· + c) } }

/-- The timing of R200 for the generators of R72: every high period inside a byte is at most `BYTE_START_TICKS`, a 1
is shorter than the calibration pulse and a 0 is not, and no width wraps. -/
def Timing.fits (p : Timing) (prm : Params) : Bool :=
  decide (p.c ≤ prm.byteStartTicks) && decide (p.one < p.c) && decide (p.c ≤ p.zero) && decide (p.zero ≤ p.win)
    && decide (p.win - p.one ≤ prm.byteStartTicks) && decide (p.zero < 2 ^ 32)

/-- R70 items 2 and 3, with the widths of R200: the bit pulses are the byte's eight bits, most significant first, and its
even-parity bit, a 1 narrower than the byte's own calibration pulse and a 0 not; every high period between them is at most
`BYTE_START_TICKS`; no width wraps (log entry 16). -/
def SentByte.fits (b : SentByte) (prm : Params) : Bool :=
  decide (b.bits.map (fun p => decide (p.low < b.start.low)) = dataBits b.byte ++ [evenParityBit b.byte])
    && b.bits.all (fun p => decide (p.high ≤ prm.byteStartTicks) && decide (p.low < 2 ^ 32))
    && decide (b.start.low < 2 ^ 32)

/-- R70 item 4: the gap before a further byte of a packet. -/
def SentByte.follows (b : SentByte) (prm : Params) : Bool :=
  decide (prm.byteStartTicks < b.start.high) && decide (b.start.high ≤ prm.packetStartTicks)

/-- R70 item 1: the gap before the first byte of a packet. -/
def SentByte.begins (b : SentByte) (prm : Params) : Bool :=
  decide (prm.packetStartTicks < b.start.high) && decide (b.start.high < 2 ^ 32)

end Sys2Proof.Machine
end

