-- ==== Sys2Proof/Certificates/Slice0/Obligations.lean ====
section
/-! DEFINITION. The statements for the provers. Each docstring names the part of the spec it formalises. -/

open Sys2Proof Sys2Proof.Machine

/-! ### Reset, construction, decoding, the step -/

/-- 10_state.md section 10 (R28, the spec's decision D19): the reset values; and what constructing an instance gives for
every parameter set: the reset state for a legal one, a refusal for one that 00_scope.md section 4 refuses (R6, D2), and
without a driver the failure of 60_exceptions.md section 1 (R164, D28). That this failure is a fault and no refusal is the
model's choice (log entry 8; U9 treats such an instance as refused). -/
def Obligations.ResetAndConstruction : Prop :=
  (State.reset.dec.started = false ∧ State.reset.dec.phase = .idle ∧ State.reset.dec.bytes = [] ∧
    State.reset.dec.bitCount = 0 ∧ State.reset.dec.parity = false ∧ State.reset.dec.calib = none ∧
    State.reset.dec.lastLow = none ∧ State.reset.dec.lastHigh = none ∧ State.reset.dec.wdArmed = false) ∧
  ∀ p : Params,
    (p.wellFormed = true → p.driverAvailable = true →
      ∃ s, construct p = .next s ∧ s.dec = State.reset.dec ∧ s.params = p) ∧
    (p.wellFormed = true → p.driverAvailable = false → construct p = .fault .driverUnavailable) ∧
    (p.wellFormed = false → construct p = .refused .illFormedParameters)

/-- 95_test_vectors.md section 2, VE1 to VE7, and the command and reset codes of 30_encoding.md sections 3 and 8. -/
def Obligations.WordsOfTheSpecDecode : Prop :=
  decode (.ev 0x000001770#34) = .ok (.low 6000#32) ∧
  decode (.ev 0x1000017AC#34) = .ok (.high 6060#32) ∧
  decode (.ev 0x200002508#34) = .ok (.timeout 9480#32) ∧
  decode (.ev 0x1FFFFFFFF#34) = .ok (.high 4294967295#32) ∧
  decode (.ev 0x000000000#34) = .ok (.low 0#32) ∧
  decode (.ev 0x300000000#34) = .error .reservedLevel ∧
  decode (.ev 0x3FFFFFFFF#34) = .error .reservedLevel ∧
  decode (.cmd 0#1) = .ok .stop ∧ decode (.cmd 1#1) = .ok .start ∧ decode (.rst 1#1) = .ok .reset

/-- 30_encoding.md sections 2, 3 and 8 (codes: the spec's decisions D13, D16): for every operation, with every tick,
decoding its port word gives it back, and that word is a legal one. -/
def Obligations.DecodeOfEncode : Prop :=
  ∀ i : Instr, decode (encode i) = .ok i ∧ (encode i).wellFormed = true

/-- The other direction: a port word that carries an operation is that operation's word, so each has one meaning. -/
def Obligations.EncodeOfDecode : Prop :=
  ∀ (p : PortInput) (i : Instr), decode p = .ok i → encode i = p

/-- 30_encoding.md section 2 (D13): "as a number the word is `level * 2^32 + tick`"; every 34-bit word is read so. -/
def Obligations.EventWordReadAsNumber : Prop :=
  ∀ (level : Nat) (tick : Tick), level < 4 →
    decode (.ev (BitVec.ofNat 34 (level * 2 ^ 32 + tick.toNat))) =
      (match level with
      | 0 => .ok (.low tick)
      | 1 => .ok (.high tick)
      | 2 => .ok (.timeout tick)
      | _ => .error .reservedLevel)

/-- 20_memory.md section 4 and 40_common_operations.md section 6: the next step runs the operation that the first
waiting port word decodes to, on the state with that word taken. -/
def Obligations.StepRunsDecodedInput : Prop :=
  ∀ (s : State) (p : PortInput) (rest : List PortInput) (i : Instr),
    s.params.wellFormed = true → s.inputs = p :: rest → decode p = .ok i →
      step s = exec i { s with inputs := rest }

/-- 10_state.md section 10 ("the block waits"): with no input waiting a step changes nothing; and (the model's
choice, log entry 5) an `rst` bit at 0 is taken and changes nothing else. -/
def Obligations.StepWaitsWithoutOperation : Prop :=
  ∀ s : State, s.params.wellFormed = true →
    (s.inputs = [] → step s = .next s) ∧
    (∀ rest, s.inputs = .rst 0#1 :: rest → step s = .next { s with inputs := rest })

/-- 30_encoding.md section 7 (D22): the reserved level code is refused. The second clause is the model's choice (log
entry 11, DESIGN CHOICE): 00_scope.md section 4 (R6, D2) refuses an ill-formed parameter set at instantiation, and the model
refuses it at every step, in every state that holds one. -/
def Obligations.StepRefusals : Prop :=
  (∀ (s : State) (w : EvWord) (rest : List PortInput), s.params.wellFormed = true → s.inputs = .ev w :: rest →
    w.toNat / 2 ^ 32 = 3 → step s = .refused .reservedLevelCode) ∧
  (∀ s : State, (s.params.packetStartTicks ≤ s.params.byteStartTicks ∨ 2 ^ 32 ≤ s.params.packetStartTicks ∨
    s.params.watchdogMs = 0) → step s = .refused .illFormedParameters)

/-- 93_implementation_defined.md ("Nothing in the block is treated as fault ... or stuck ... `Step` is total"): no
step faults, and a step is refused only for the reserved level code or for parameters R6 refuses. -/
def Obligations.StepNeverFaultsNorSticks : Prop :=
  ∀ s : State, (∀ f, step s ≠ .fault f) ∧
    (s.params.wellFormed = true → (∀ w rest, s.inputs = .ev w :: rest → w.toNat / 2 ^ 32 ≠ 3) → SafeStep s)

/-- 40_common_operations.md section 6: `Step` is total; every operation answers a next state in every state. -/
def Obligations.EveryOperationCompletes : Prop :=
  ∀ (i : Instr) (s : State), ∃ t, exec i s = .next t

/-- 40_common_operations.md section 8 (R90): running the step on a trace of port words is the fold of the operations
over the state, whatever the trace; both give the same next state. That a trace waits in the field `inputs` is the model's
choice (log entry 3, DESIGN CHOICE). -/
def Obligations.RunIsFoldOfTrace : Prop :=
  ∀ (is : List Instr) (s t : State), s.params.wellFormed = true → execTrace is s = .next t →
    Host.Core.run Sys2Proof.core is.length { s with inputs := is.map encode ++ s.inputs } = .next t

/-! ### The six operations -/

/-- 40_common_operations.md section 1 (R80, the spec's decision D3): the formula of `tick_diff`, its consequences and
worked values. -/
def Obligations.TickDiffWraps : Prop :=
  (∀ t0 t1 : Tick, ((tickDiff t0 t1).toNat : Int) = ((t1.toNat : Int) - (t0.toNat : Int)) % 2 ^ 32) ∧
  tickDiff 0xFFFFFFF0#32 0x00000010#32 = 32#32 ∧ tickDiff 10#32 5#32 = 4294967291#32

/-- 41_low_event.md (R100 to R105), the whole LOW handler while started: no earlier HIGH event; a packet-start gap; a
byte-start gap of a frame in progress after exactly nine bits and after any other number; any other gap. The next state is
given whole, so everything it does not name is unchanged. The clause on a missing HIGH event is the spec's decision D6, the
disarm first and the tick written last are D10 and D5; that the disarm command is sent also while the watchdog is not armed
is the model's choice (log entry 7, DESIGN CHOICE: R86 allows omitting it). -/
def Obligations.LowEventResult : Prop :=
  ∀ (s : State) (tick : Tick), s.dec.started = true →
    (s.dec.lastHigh = none →
      exec (.low tick) s = .next { s with
        dec := { s.dec with lastLow := some tick, wdArmed := false }
        out := s.out ++ [.wdDisarm] }) ∧
    ∀ h, s.dec.lastHigh = some h →
      (s.params.packetStartTicks < (tickDiff h tick).toNat →
        exec (.low tick) s = .next { s with
          dec := { s.dec with
            phase := .awaitingByteCalibration, bytes := [0x00#8], bitCount := 0, parity := false, calib := none
            lastLow := some tick, wdArmed := false }
          out := s.out ++ [.wdDisarm] ++ pendingFrame s .ok }) ∧
      ((tickDiff h tick).toNat ≤ s.params.packetStartTicks → s.params.byteStartTicks < (tickDiff h tick).toNat →
        s.dec.phase ≠ .idle → s.dec.bitCount = 9 →
        exec (.low tick) s = .next { s with
          dec := { s.dec with
            phase := .awaitingByteCalibration, bytes := s.dec.bytes ++ [0x00#8], bitCount := 0, parity := false
            calib := none, lastLow := some tick, wdArmed := false }
          out := s.out ++ [.wdDisarm] }) ∧
      ((tickDiff h tick).toNat ≤ s.params.packetStartTicks → s.params.byteStartTicks < (tickDiff h tick).toNat →
        s.dec.phase ≠ .idle → s.dec.bitCount ≠ 9 →
        exec (.low tick) s = .next { s with
          dec := { s.dec with
            phase := .idle, bytes := [], bitCount := 0, parity := false, calib := none
            lastLow := some tick, wdArmed := false }
          out := s.out ++ [.wdDisarm] ++ pendingFrame s .bitCountError }) ∧
      ((tickDiff h tick).toNat ≤ s.params.packetStartTicks →
        ((tickDiff h tick).toNat ≤ s.params.byteStartTicks ∨ s.dec.phase = .idle) →
        exec (.low tick) s = .next { s with
          dec := { s.dec with lastLow := some tick, wdArmed := false }
          out := s.out ++ [.wdDisarm] })

/-- 42_high_event.md (R110 to R118), the whole HIGH handler while started: no earlier LOW event or no frame in progress
(nothing but the tick); the calibration pulse; a data bit, 1 exactly if the pulse is shorter than the calibration width,
shifted in as `byte*2 + bit`, counted and added into the parity; the ninth bit, not stored, which arms the watchdog if the
nine bits hold an even number of 1s and flushes as ParityError if not; a tenth bit, whatever its width. The next state is
given whole. The clauses on a missing LOW event, on `Idle` and on the tenth bit are the spec's decisions D6, D7 and D8, the
disarm is D10; that the disarm command is sent also while the watchdog is not armed is the model's choice (log entry 7,
DESIGN CHOICE: R86 allows omitting it). -/
def Obligations.HighEventResult : Prop :=
  ∀ (s : State) (tick : Tick), s.dec.started = true →
    ((s.dec.lastLow = none ∨ s.dec.phase = .idle) →
      exec (.high tick) s = .next { s with
        dec := { s.dec with lastHigh := some tick, wdArmed := false }
        out := s.out ++ [.wdDisarm] }) ∧
    ∀ l, s.dec.lastLow = some l →
      (s.dec.phase = .awaitingByteCalibration →
        exec (.high tick) s = .next { s with
          dec := { s.dec with
            phase := .decodingBits, calib := some (tickDiff l tick), lastHigh := some tick, wdArmed := false }
          out := s.out ++ [.wdDisarm] }) ∧
      (∀ (c : Tick) (done : List Byte) (b : Byte), s.dec.phase = .decodingBits → s.dec.calib = some c →
        s.dec.bytes = done ++ [b] → s.dec.bitCount < 8 → (tickDiff l tick).toNat < c.toNat →
          exec (.high tick) s = .next { s with
            dec := { s.dec with
              bytes := done ++ [b * 2#8 + 1#8], bitCount := s.dec.bitCount + 1, parity := !s.dec.parity
              lastHigh := some tick, wdArmed := false }
            out := s.out ++ [.wdDisarm] }) ∧
      (∀ (c : Tick) (done : List Byte) (b : Byte), s.dec.phase = .decodingBits → s.dec.calib = some c →
        s.dec.bytes = done ++ [b] → s.dec.bitCount < 8 → c.toNat ≤ (tickDiff l tick).toNat →
          exec (.high tick) s = .next { s with
            dec := { s.dec with
              bytes := done ++ [b * 2#8], bitCount := s.dec.bitCount + 1, lastHigh := some tick, wdArmed := false }
            out := s.out ++ [.wdDisarm] }) ∧
      (∀ c : Tick, s.dec.phase = .decodingBits → s.dec.calib = some c → s.dec.bitCount = 8 →
        s.dec.parity = decide ((tickDiff l tick).toNat < c.toNat) →
          exec (.high tick) s = .next { s with
            dec := { s.dec with bitCount := 9, parity := false, lastHigh := some tick, wdArmed := true }
            out := s.out ++ [.wdDisarm, .wdArm s.params.watchdogMs] }) ∧
      (∀ c : Tick, s.dec.phase = .decodingBits → s.dec.calib = some c → s.dec.bitCount = 8 →
        s.dec.parity ≠ decide ((tickDiff l tick).toNat < c.toNat) →
          exec (.high tick) s = .next { s with
            dec := { s.dec with
              phase := .idle, bytes := [], bitCount := 0, parity := false, calib := none
              lastHigh := some tick, wdArmed := false }
            out := s.out ++ [.wdDisarm] ++ pendingFrame s .parityError }) ∧
      (s.dec.phase = .decodingBits → 9 ≤ s.dec.bitCount →
        exec (.high tick) s = .next { s with
          dec := { s.dec with
            phase := .idle, bytes := [], bitCount := 0, parity := false, calib := none
            lastHigh := some tick, wdArmed := false }
          out := s.out ++ [.wdDisarm] ++ pendingFrame s .bitCountError })

/-- R125: TIMEOUT while started flushes any frame in progress as OK, unconditionally, keeps both tick registers and
sends no watchdog command; its tick is ignored. -/
def Obligations.TimeoutResult : Prop :=
  ∀ (s : State) (tick : Tick), s.dec.started = true →
    exec (.timeout tick) s = .next { s with
      dec := { s.dec with
        phase := .idle, bytes := [], bitCount := 0, parity := false, calib := none, wdArmed := false }
      out := s.out ++ pendingFrame s .ok }

/-- 44_control_commands.md (R135, decisions D20 and D28): START clears every decoder field and starts, without a
Frame; without a driver it fails to its caller and changes nothing (log entry 8). The disarm command is sent whether or not
the watchdog is armed (log entry 7, DESIGN CHOICE). -/
def Obligations.StartResult : Prop :=
  ∀ s : State,
    (s.params.driverAvailable = true →
      exec .start s = .next { s with dec := { State.reset.dec with started := true }, out := s.out ++ [.wdDisarm] }) ∧
    (s.params.driverAvailable = false → exec .start s = .next { s with out := s.out ++ [.driverUnavailable] })

/-- 44_control_commands.md (R136, D20) and 70_reset_and_hazards.md section 1 (R190, D19): STOP and RESET give the
reset state of the decoder, whatever the state before, without a Frame. The disarm command is sent whether or not the
watchdog is armed (log entry 7, DESIGN CHOICE). -/
def Obligations.StopAndResetResult : Prop :=
  ∀ s : State,
    exec .stop s = .next { s with dec := State.reset.dec, out := s.out ++ [.wdDisarm] } ∧
    exec .reset s = .next { s with dec := State.reset.dec, out := s.out ++ [.wdDisarm] }

/-- 40_common_operations.md section 6 (R88, D21): an event presented while the decoder is stopped changes nothing. -/
def Obligations.EventsWhileStoppedIgnored : Prop :=
  ∀ (s : State) (tick : Tick), s.dec.started = false →
    exec (.low tick) s = .next s ∧ exec (.high tick) s = .next s ∧ exec (.timeout tick) s = .next s

/-! ### Frames, causes and priorities -/

/-- 10_state.md section 2 (R20): what LOW, HIGH and TIMEOUT leave as it is. That no operation writes a parameter is
00_scope.md section 4 (R6) and 10_state.md section 5 (R23); that the parameters and the waiting inputs are fields of State
is the model's choice (log entries 1 and 3, DESIGN CHOICE). -/
def Obligations.RegistersWrittenAsTabled : Prop :=
  ∀ (i : Instr) (s t : State), exec i s = .next t →
    t.params = s.params ∧ t.inputs = s.inputs ∧
    (∀ tick, i = .low tick → t.dec.started = s.dec.started ∧ t.dec.lastHigh = s.dec.lastHigh) ∧
    (∀ tick, i = .high tick → t.dec.started = s.dec.started ∧ t.dec.lastLow = s.dec.lastLow) ∧
    (∀ tick, i = .timeout tick →
      t.dec.started = s.dec.started ∧ t.dec.lastLow = s.dec.lastLow ∧ t.dec.lastHigh = s.dec.lastHigh)

/-- 20_memory.md section 1 (R40): the accesses to the frame byte buffer, and no other. Where a frame stays in progress,
every position but the last keeps its byte. -/
def Obligations.BufferAccesses : Prop :=
  ∀ (i : Instr) (s t : State), exec i s = .next t →
    t.dec.bytes = s.dec.bytes ∨
    ((∃ tick, i = .low tick) ∧ t.dec.bytes = s.dec.bytes ++ [0x00#8]) ∨
    ((∃ tick, i = .low tick) ∧ t.dec.bytes = [0x00#8] ∧ emitted s t = framesOf (pendingFrame s .ok)) ∨
    ((∃ tick, i = .high tick) ∧ s.dec.bitCount < 8 ∧ ∃ done b, s.dec.bytes = done ++ [b] ∧
      (t.dec.bytes = done ++ [b * 2#8] ∨ t.dec.bytes = done ++ [b * 2#8 + 1#8])) ∨
    (t.dec.bytes = [] ∧ (emitted s t ≠ [] → ∃ status, emitted s t = [⟨s.dec.bytes, status⟩]))

/-- 20_memory.md section 4 (R44, decisions D9 and D17): an operation emits no Frame or one, which holds the buffer as
it stood before, at least one byte. -/
def Obligations.AtMostOneFramePerOperation : Prop :=
  ∀ (i : Instr) (s t : State), exec i s = .next t →
    t.out = s.out ++ sentBetween s t ∧
    (emitted s t = [] ∨ ∃ status, emitted s t = [⟨s.dec.bytes, status⟩] ∧ s.dec.bytes ≠ [])

/-- 30_encoding.md section 5 (R67): the watchdog commands of one operation: at most one disarm and at most one arm, the
disarm first, the arm always with `WATCHDOG_MS`. That no arm comes without a disarm before it is the model's choice (log
entry 7, DESIGN CHOICE: R86 allows omitting a disarm while the watchdog is not armed). -/
def Obligations.WatchdogCommandsPerOperation : Prop :=
  ∀ (i : Instr) (s t : State), exec i s = .next t →
    watchdogCommands (sentBetween s t) = [] ∨ watchdogCommands (sentBetween s t) = [.wdDisarm] ∨
    watchdogCommands (sentBetween s t) = [.wdDisarm, .wdArm s.params.watchdogMs]

/-- 43_timeout_and_watchdog.md (R127, D10): what a watchdog command means for `wd_armed`, and the one place that
arms. -/
def Obligations.WatchdogArmedAtValidByteOnly : Prop :=
  ∀ (i : Instr) (s t : State), s.Inv → exec i s = .next t →
    ((∃ ms, Output.wdArm ms ∈ sentBetween s t) ↔
      ∃ tick l c, i = .high tick ∧ s.dec.started = true ∧ s.dec.lastLow = some l ∧ s.dec.calib = some c ∧
        s.dec.phase = .decodingBits ∧ s.dec.bitCount = 8 ∧
        parityOf (dataBits s.dec.activeByte ++ [decide ((tickDiff l tick).toNat < c.toNat)]) = false) ∧
    ((∃ ms, Output.wdArm ms ∈ sentBetween s t) → t.dec.wdArmed = true) ∧
    (s.dec.started = true → i.isEvent = true → (¬ ∃ ms, Output.wdArm ms ∈ sentBetween s t) → t.dec.wdArmed = false)

/-- R161: ParityError is emitted exactly by a HIGH event that delivers the ninth bit of a byte when the nine bits hold
an odd number of 1s; the Frame holds all bytes of the frame, the watchdog is not armed, no Measurement results. -/
def Obligations.ParityErrorCause : Prop :=
  statusCode .parityError = 0b01#2 ∧ ∀ (i : Instr) (s t : State) (bs : List Byte), s.Inv → exec i s = .next t →
    ((⟨bs, .parityError⟩ ∈ emitted s t ↔
      bs = s.dec.bytes ∧ ∃ tick l c, i = .high tick ∧ s.dec.started = true ∧ s.dec.lastLow = some l ∧
        s.dec.calib = some c ∧ s.dec.phase = .decodingBits ∧ s.dec.bitCount = 8 ∧
        parityOf (dataBits s.dec.activeByte ++ [decide ((tickDiff l tick).toNat < c.toNat)]) = true) ∧
     (⟨bs, .parityError⟩ ∈ emitted s t →
      t.dec.phase = .idle ∧ t.dec.bytes = [] ∧ t.dec.wdArmed = false ∧
        ∀ p, temperatureOf p ⟨bs, .parityError⟩ = none))

/-- R162: the two causes of BitCountError, a byte-start gap of a frame in progress without exactly nine bits, and a
tenth bit; the Frame holds all bytes of the frame, in the first case the bits received in the low places of the last
byte, in the second a last byte with valid parity. -/
def Obligations.BitCountErrorCauses : Prop :=
  statusCode .bitCountError = 0b10#2 ∧ ∀ (i : Instr) (s t : State) (bs : List Byte), s.Inv → exec i s = .next t →
    ((⟨bs, .bitCountError⟩ ∈ emitted s t ↔
      bs = s.dec.bytes ∧ s.dec.started = true ∧
        ((∃ tick h, i = .low tick ∧ s.dec.lastHigh = some h ∧ s.dec.phase ≠ .idle ∧ s.dec.bitCount ≠ 9 ∧
            s.params.byteStartTicks < (tickDiff h tick).toNat ∧
            (tickDiff h tick).toNat ≤ s.params.packetStartTicks) ∨
         (∃ tick, i = .high tick ∧ s.dec.phase = .decodingBits ∧ s.dec.bitCount = 9))) ∧
     (⟨bs, .bitCountError⟩ ∈ emitted s t → t.dec.phase = .idle ∧ t.dec.bytes = [] ∧
        (s.dec.bitCount ≠ 9 → s.dec.activeByte.toNat < 2 ^ s.dec.bitCount) ∧
        (s.dec.bitCount = 9 → s.dec.parity = false)))

/-- 60_exceptions.md section 1 (R163): OK is emitted exactly by a packet-start gap or a TIMEOUT that finds a frame in
progress, and says nothing of the last byte's bit count. -/
def Obligations.OkFrameCauses : Prop :=
  ∀ (i : Instr) (s t : State) (bs : List Byte), s.Inv → exec i s = .next t →
    (⟨bs, .ok⟩ ∈ emitted s t ↔
      bs = s.dec.bytes ∧ s.dec.started = true ∧ s.dec.phase ≠ .idle ∧
        ((∃ tick h, i = .low tick ∧ s.dec.lastHigh = some h ∧
            s.params.packetStartTicks < (tickDiff h tick).toNat) ∨
         (∃ tick, i = .timeout tick)))

/-- R168: a Frame that is emitted saves the bytes as they stood, keeps `started` and the tick register that is not the
event's own, records the event's own tick (a TIMEOUT has none to record), leaves the watchdog disarmed and goes to
`Idle` with the accumulation fields cleared; only a packet-start gap, whose status is OK, begins a new frame behind it. -/
def Obligations.FlushAsTrapEntry : Prop :=
  ∀ (i : Instr) (s t : State) (bs : List Byte) (status : Status), exec i s = .next t →
    ⟨bs, status⟩ ∈ emitted s t →
      bs = s.dec.bytes ∧ t.dec.started = s.dec.started ∧ t.dec.wdArmed = false ∧
      t.dec.bitCount = 0 ∧ t.dec.parity = false ∧ t.dec.calib = none ∧
      ((∃ tick, i = .low tick ∧ t.dec.lastLow = some tick ∧ t.dec.lastHigh = s.dec.lastHigh) ∨
       (∃ tick, i = .high tick ∧ t.dec.lastHigh = some tick ∧ t.dec.lastLow = s.dec.lastLow) ∨
       (∃ tick, i = .timeout tick ∧ t.dec.lastLow = s.dec.lastLow ∧ t.dec.lastHigh = s.dec.lastHigh)) ∧
      ((t.dec.phase = .idle ∧ t.dec.bytes = []) ∨
       (status = .ok ∧ (∃ tick, i = .low tick) ∧ t.dec.phase = .awaitingByteCalibration ∧ t.dec.bytes = [0x00#8]))

/-- 10_state.md section 6 item 10 and 20_memory.md section 3: a byte is closed, that is, another is appended behind
it, only when it has exactly nine bits with even parity. -/
def Obligations.ByteClosedAtNineBitsOnly : Prop :=
  ∀ (i : Instr) (s t : State), s.Inv → exec i s = .next t → s.dec.bytes ≠ [] →
    t.dec.bytes.length = s.dec.bytes.length + 1 →
      t.dec.bytes = s.dec.bytes ++ [0x00#8] ∧ s.dec.phase = .decodingBits ∧ s.dec.bitCount = 9 ∧
        s.dec.parity = false

/-- 44_control_commands.md (R139): commands and reset emit no Frame and change no parameter. -/
def Obligations.CommandsEmitNoFrame : Prop :=
  ∀ (i : Instr) (s t : State), i.isEvent = false → exec i s = .next t → emitted s t = [] ∧ t.params = s.params

/-- 20_memory.md section 4 (R45): TIMEOUT, START, STOP and RESET are idempotent, and the second of two emits
nothing. -/
def Obligations.IdempotentOperations : Prop :=
  ∀ (i : Instr) (s t u : State), (i = .start ∨ i = .stop ∨ i = .reset ∨ ∃ tick, i = .timeout tick) →
    exec i s = .next t → exec i t = .next u → u.dec = t.dec ∧ emitted t u = []

/-! ### Invariants and whole-machine properties -/

/-- 10_state.md sections 6 and 10: the invariant holds at reset and right after the construction of any instance. -/
def Obligations.InvariantAtReset : Prop :=
  State.reset.Inv ∧ ∀ (p : Params) (s : State), construct p = .next s → s.Inv

/-- 10_state.md section 6 (R24 items 1 to 9, derived by the spec itself), with R164 and R44 beside it: every step
keeps the invariant, from every state that meets it. -/
def Obligations.InvariantKeptByStep : Prop :=
  ∀ s t : State, s.Inv → step s = .next t → t.Inv

/-- 10_state.md section 9 and 60_exceptions.md section 8: "only differences of ticks are ever used": moving every tick
by one amount moves the tick registers by it and changes nothing else, whatever wraps. -/
def Obligations.OnlyTickDifferencesMatter : Prop :=
  ∀ (c : Tick) (i : Instr) (s t : State), exec i s = .next t →
    exec (shiftTick c i) (State.shift c s) = .next (State.shift c t)

/-- 60_exceptions.md (R165) and 20_memory.md section 7: what was sent before, and what waits at the ports, has no
influence on an operation. -/
def Obligations.OutputsDoNotFeedBack : Prop :=
  ∀ (i : Instr) (s t : State) (o : List Output) (ins : List PortInput), exec i s = .next t →
    exec i { s with out := o, inputs := ins } = .next { t with out := o ++ sentBetween s t, inputs := ins }

/-- 60_exceptions.md section 5 and 70_reset_and_hazards.md rules R169, R192, R209: a trace that starts with no frame
in progress emits a Frame or begins one only if some LOW event of it comes more than `PACKET_START_TICKS` after the
last HIGH event before it, in a started decoder. -/
def Obligations.DecodingStartsAtPacketStartOnly : Prop :=
  ∀ (is : List Instr) (s t : State), s.Inv → s.dec.phase = .idle → execTrace is s = .next t →
    (t.dec.phase ≠ .idle ∨ emitted s t ≠ []) →
      ∃ before tick after u h, is = before ++ .low tick :: after ∧ execTrace before s = .next u ∧
        u.dec.started = true ∧ u.dec.lastHigh = some h ∧ s.params.packetStartTicks < (tickDiff h tick).toNat

/-- 20_memory.md section 8 (R49): once STOP has been handled no event is handled until the next START and no Frame is
emitted. That an event presented while stopped is the identity is the spec's decision D21; that STOP sends its disarm command
from every state is the model's choice (log entry 7, DESIGN CHOICE). -/
def Obligations.StopSilencesEvents : Prop :=
  ∀ (s : State) (is : List Instr), (∀ i ∈ is, i.isEvent = true) →
    execTrace (.stop :: is) s = .next { s with dec := State.reset.dec, out := s.out ++ [.wdDisarm] }

/-- 44_control_commands.md (R138, D30): an event in flight at a STOP is handled whole before it or dropped after it;
either way the decoder ends in the reset state, and only the first order can emit a Frame. -/
def Obligations.EventRacingStop : Prop :=
  ∀ (i : Instr) (s t u v : State), i.isEvent = true →
    exec i s = .next t → execTrace [i, .stop] s = .next u → execTrace [.stop, i] s = .next v →
      u.dec = State.reset.dec ∧ v.dec = State.reset.dec ∧ emitted s u = emitted s t ∧ emitted s v = []

/-- 43_timeout_and_watchdog.md (R125, R128, R129): in an environment that delivers TIMEOUT only while the watchdog is
armed, a TIMEOUT flushes, as OK, a frame whose last byte is complete with valid parity. -/
def Obligations.ConformingTimeoutFlushesCompleteByte : Prop :=
  ∀ (s : State) (tick : Tick), s.Inv → s.params.envStaleTimeout = false → envMay s (.timeout tick) = true →
    s.dec.phase = .decodingBits ∧ s.dec.bitCount = 9 ∧ s.dec.parity = false ∧
      ∃ t, exec (.timeout tick) s = .next t ∧ emitted s t = [⟨s.dec.bytes, .ok⟩] ∧ complete t = true

/-- 43_timeout_and_watchdog.md (R131, which the spec marks as derived; its reading at each armed moment is log entry 14,
DEDUCED): where the watchdog's window is no longer than one tick beyond the packet-start threshold, a well-timed environment
never ends an armed silence by a packet-start gap: the TIMEOUT comes first. A LOW event that comes before it emits no Frame
and begins no frame: it leaves the buffer or begins the next byte behind it. -/
def Obligations.WatchdogFiresBeforePacketStart : Prop :=
  ∀ (s : State) (tick h : Tick) (is : List Instr),
    1000 * s.params.watchdogMs ≤ s.params.packetStartTicks + 1 → s.dec.wdArmed = true → s.dec.lastHigh = some h →
    wellTimed (.low tick :: is) s = true →
      (tickDiff h tick).toNat ≤ s.params.packetStartTicks ∧
      (s.Inv → ∃ t, exec (.low tick) s = .next t ∧ emitted s t = [] ∧ s.dec.bytes ≠ [] ∧
        (t.dec.bytes = s.dec.bytes ∨ t.dec.bytes = s.dec.bytes ++ [0x00#8]))

/-- 20_memory.md section 2 (R41): bits are received most significant bit first. Eight bit pulses `d1 .. d8` of one
timing, which meets the premise of log entry 16 (DEDUCED, from 70_reset_and_hazards.md R200), into an empty active byte; and
a ninth, the parity bit, is not stored. PacketOfAnyWidthsReceived takes pulses whose widths differ. -/
def Obligations.BitsReceivedMsbFirst : Prop :=
  ∀ (s : State) (p : Timing) (h t : Tick) (done : List Byte) (d1 d2 d3 d4 d5 d6 d7 d8 : Bool),
    s.params.wellFormed = true → p.fits s.params = true → s.dec.started = true → s.dec.phase = .decodingBits →
    s.dec.bytes = done ++ [0x00#8] → s.dec.bitCount = 0 → s.dec.calib = some (BitVec.ofNat 32 p.c) →
    s.dec.lastHigh = some h → (tickDiff h t).toNat ≤ s.params.byteStartTicks →
      ∃ u b, execTrace (bitPulses p t [d1, d2, d3, d4, d5, d6, d7, d8]) s = .next u ∧
        u.dec.bytes = done ++ [b] ∧ u.dec.bitCount = 8 ∧ u.dec.phase = .decodingBits ∧ emitted s u = [] ∧
        b.toNat = d1.toNat * 128 + d2.toNat * 64 + d3.toNat * 32 + d4.toNat * 16 + d5.toNat * 8 + d6.toNat * 4 +
          d7.toNat * 2 + d8.toNat ∧
        ∀ d9, ∃ v, execTrace (bitPulses p t [d1, d2, d3, d4, d5, d6, d7, d8, d9]) s = .next v ∧
          ((v.dec.bytes = done ++ [b] ∧ emitted s v = []) ∨
           (v.dec.bytes = [] ∧ emitted s v = [⟨done ++ [b], .parityError⟩]))

/-- 30_encoding.md section 9 and 95_test_vectors.md S1, for packets of every length: from any started state without a
frame in progress, a packet-start gap, the bytes of a packet timed by the generators of R72 with a timing that meets the
premise of log entry 16 (DEDUCED, from R200), and a TIMEOUT emit exactly one Frame, OK, with exactly those bytes; nothing is
left in progress. PacketOfAnyWidthsReceived takes other widths and the other end of a packet. -/
def Obligations.PacketReceivedAsSent : Prop :=
  ∀ (s : State) (p : Timing) (h t late : Tick) (bs : List Byte) (g : Nat),
    s.Inv → s.params.wellFormed = true → p.fits s.params = true → s.dec.started = true → s.dec.phase = .idle →
    s.dec.lastHigh = some h → s.params.packetStartTicks < (tickDiff h t).toNat →
    s.params.byteStartTicks < g → g ≤ s.params.packetStartTicks → bs ≠ [] →
      ∃ u, execTrace (packetTrace p t bs g ++ [.timeout late]) s = .next u ∧ emitted s u = [⟨bs, .ok⟩] ∧
        complete u = true ∧ u.dec.lastHigh = some (packetEnd p t bs g)

/-- 95_test_vectors.md S2: a byte received with the wrong parity, as every single flipped bit of the nine gives, ends as
ParityError with the bytes received, and no Measurement; nothing is left in progress. Its timing premise is log entry 16
(DEDUCED). -/
def Obligations.WrongParityRejected : Prop :=
  ∀ (s : State) (p : Timing) (h t : Tick) (b : Byte) (par : Bool),
    s.Inv → s.params.wellFormed = true → p.fits s.params = true → s.dec.started = true → s.dec.phase = .idle →
    s.dec.lastHigh = some h → s.params.packetStartTicks < (tickDiff h t).toNat → par ≠ evenParityBit b →
      ∃ u, execTrace (byteTraceWith p t b par) s = .next u ∧ emitted s u = [⟨[b], .parityError⟩] ∧
        complete u = true ∧ ∀ f ∈ emitted s u, temperatureOf s.params.profile f = none

/-- 70_reset_and_hazards.md section 4 (R202, R204) and 45_value_conversion.md sections 1, 2 and 5 (R146, R148, R154): a
TIMEOUT in the middle of the second byte emits an OK Frame that the acceptance rule passes, so a Measurement results from
the bits received so far. That its temperature is the binary64 value of the raw value is section 4 there (R151, the spec's
decision D26; U11 admits the exact rational instead) and log entry 9 (DEDUCED). -/
def Obligations.OkFrameMayEndIncomplete : Prop :=
  ∀ (s : State) (tick : Tick) (b0 b1 : Byte), s.dec.started = true → s.dec.bytes = [b0, b1] → s.dec.bitCount < 9 →
    ∃ t, exec (.timeout tick) s = .next t ∧ emitted s t = [⟨[b0, b1], .ok⟩] ∧
      temperatures t = temperatures s ++ [convertF64 s.params.profile (rawValue b0 b1)]

/-- 60_exceptions.md section 10 (R174): "any interleaving of their steps gives the same per-instance results". Whatever
the schedule, each instance of a system ends in the state that the fold of its own first operations gives, as many as the
schedule has steps for it, with the rest of its operations waiting; what the other instances do plays no part. That a system
is a list of states, and that the inputs wait in State, is the model's choice (log entries 15 and 3, DESIGN CHOICE). -/
def Obligations.InstancesIndependent : Prop :=
  ∀ (sys : System) (traces : List (List Instr)) (schedule : List Nat),
    traces.length = sys.length → (∀ k ∈ schedule, k < sys.length) →
    (∀ (k : Nat) (s : State) (is : List Instr), sys[k]? = some s → traces[k]? = some is →
      s.params.wellFormed = true ∧ s.inputs = is.map encode) →
      ∃ sys', System.run schedule sys = some sys' ∧ sys'.length = sys.length ∧
        ∀ (k : Nat) (s : State) (is : List Instr), sys[k]? = some s → traces[k]? = some is →
          ∃ t, sys'[k]? = some t ∧
            execTrace (is.take (schedule.count k))
              { s with inputs := (is.drop (schedule.count k)).map encode } = .next t

/-! ### Codes and the value conversion -/

/-- 30_encoding.md section 4 (decisions D14, D15): the codes of status and phase, `0b11` never among them. -/
def Obligations.StatusAndPhaseCodes : Prop :=
  statusCode .ok = 0b00#2 ∧ statusCode .parityError = 0b01#2 ∧ statusCode .bitCountError = 0b10#2 ∧
  phaseCode .idle = 0b00#2 ∧ phaseCode .awaitingByteCalibration = 0b01#2 ∧ phaseCode .decodingBits = 0b10#2 ∧
  (∀ x, statusCode x ≠ 0b11#2) ∧ (∀ x, phaseCode x ≠ 0b11#2)

/-- 45_value_conversion.md sections 1, 2 and 5 (R146, R148, R154): exactly the OK Frames of two bytes yield a Measurement;
its raw value is `byte0*256 + byte1`, unmasked. That its temperature is the binary64 value of that raw value is R154 with R151
(the spec's decision D26) and log entry 9 (DEDUCED). -/
def Obligations.AcceptedFramesAndRawValue : Prop :=
  (∀ (p : ProfileName) (f : Frame), (accept f = true ↔ f.status = .ok ∧ f.bytes.length = 2) ∧
    ((temperatureOf p f).isSome = true ↔ accept f = true)) ∧
  ∀ (p : ProfileName) (b0 b1 : Byte), rawOf ⟨[b0, b1], .ok⟩ = some (b0.toNat * 256 + b1.toNat) ∧
    temperatureOf p ⟨[b0, b1], .ok⟩ = some (convertF64 p (b0.toNat * 256 + b1.toNat)) ∧
    b0.toNat * 256 + b1.toNat ≤ 65535

/-- R150: the exact value as one fraction, and the worked example. -/
def Obligations.ExactConversion : Prop :=
  (∀ (p : ProfileName) (raw : Nat),
    convert p raw =
      ((raw : Rat) * ((profileEntry p).highTemp - (profileEntry p).lowTemp) +
        (profileEntry p).lowTemp * (2 ^ (profileEntry p).bitWidth - 1)) / (2 ^ (profileEntry p).bitWidth - 1)) ∧
  convert .p11WideA 1024 = 102450 / 2047

/-- R153: strictly increasing over `[0, 2^bits - 1]` with the profile's endpoints, in exact arithmetic and in
binary64. -/
def Obligations.ConversionMonotone : Prop :=
  ∀ p : ProfileName,
    (∀ r r' : Nat, r < r' → r' ≤ 2 ^ (profileEntry p).bitWidth - 1 →
      convert p r < convert p r' ∧ convertF64 p r < convertF64 p r') ∧
    convert p 0 = (profileEntry p).lowTemp ∧ convertF64 p 0 = (profileEntry p).lowTemp ∧
    convert p (2 ^ (profileEntry p).bitWidth - 1) = (profileEntry p).highTemp ∧
    convertF64 p (2 ^ (profileEntry p).bitWidth - 1) = (profileEntry p).highTemp

/-- 45_value_conversion.md section 4 (R151, the spec's decision D26), for the raw values of the profile's range: the
binary64 value lies within `10^-12` of the exact one. -/
def Obligations.BinaryConversionError : Prop :=
  ∀ (p : ProfileName) (raw : Nat), raw ≤ 2 ^ (profileEntry p).bitWidth - 1 →
    |convertF64 p raw - convert p raw| ≤ 1 / 10 ^ 12

/-! ### Packets of any widths -/

/-- 30_encoding.md section 9 (R70, with the widths of 70_reset_and_hazards.md R200, log entry 16) and 95_test_vectors.md
S1: a packet of any number of bytes, each with its own calibration pulse and with pulses and high periods of any widths that
R70 admits, is received as sent: no Frame while it comes and the watchdog armed at its end; then a TIMEOUT, or the LOW event
of the next packet's start gap, emits exactly one Frame, OK, with exactly those bytes. -/
def Obligations.PacketOfAnyWidthsReceived : Prop :=
  ∀ (s : State) (h : Tick) (first : SentByte) (rest : List SentByte),
    s.Inv → s.params.wellFormed = true → s.dec.started = true → s.dec.phase = .idle → s.dec.lastHigh = some h →
    first.begins s.params = true → (∀ b ∈ rest, b.follows s.params = true) →
    (∀ b ∈ first :: rest, b.fits s.params = true) →
      ∃ v, execTrace (pulseEvents h (packetPulses (first :: rest))) s = .next v ∧ emitted s v = [] ∧
        v.dec.wdArmed = true ∧ v.dec.lastHigh = some (pulsesEnd h (packetPulses (first :: rest))) ∧
        (∀ late, ∃ u, exec (.timeout late) v = .next u ∧
          emitted v u = [⟨(first :: rest).map SentByte.byte, .ok⟩] ∧ complete u = true) ∧
        (∀ tick, s.params.packetStartTicks <
            (tickDiff (pulsesEnd h (packetPulses (first :: rest))) tick).toNat →
          ∃ u, exec (.low tick) v = .next u ∧ emitted v u = [⟨(first :: rest).map SentByte.byte, .ok⟩] ∧
            u.dec.phase = .awaitingByteCalibration ∧ u.dec.bytes = [0x00#8])

/-- 95_test_vectors.md S3 (R102), for every byte and number of bits: a byte of which fewer than nine bits were sent, made by
the generator `BYTE(t, b)[k bits]` of R72 behind a packet-start gap and cut short by a byte-start gap `g` after its end tick,
gives exactly one Frame, BitCountError, holding the `k` bits received, right-aligned; nothing is left in progress. The timing
premise is log entry 16 (DEDUCED). -/
def Obligations.TruncatedByteRejected : Prop :=
  ∀ (s : State) (p : Timing) (h t : Tick) (b : Byte) (k g : Nat),
    s.Inv → s.params.wellFormed = true → p.fits s.params = true → s.dec.started = true → s.dec.phase = .idle →
    s.dec.lastHigh = some h → s.params.packetStartTicks < (tickDiff h t).toNat → k ≤ 8 →
    s.params.byteStartTicks < g → g ≤ s.params.packetStartTicks →
      ∃ u, execTrace (byteTraceBits p t b k ++ [.low (later (byteBitsEnd p t b k) g)]) s = .next u ∧
        emitted s u = [⟨[b >>> (8 - k)], .bitCountError⟩] ∧ complete u = true
end

