-- ==== Sys2Proof/Laws/Binary64.lean ====
section
/-! SUPPORT. The relative error of binary64 rounding (R151). -/

namespace Sys2Proof.Machine

theorem pow2_eq_zpow (e : Int) : pow2 e = (2 : ℚ) ^ e := by
  unfold pow2
  split
  · obtain ⟨n, rfl⟩ := Int.eq_ofNat_of_zero_le ‹0 ≤ e›
    simp
  · obtain ⟨n, hn⟩ := Int.eq_ofNat_of_zero_le (show 0 ≤ -e by omega)
    obtain rfl : e = -(n : Int) := by omega
    simp

theorem pow2_pos (e : Int) : 0 < pow2 e := by rw [pow2_eq_zpow]; positivity

/-- `binaryExponent` is the exponent that its docstring says. -/
theorem binaryExponent_spec {x : ℚ} (hx : x ≠ 0) :
    pow2 (binaryExponent x) ≤ |x| ∧ |x| < pow2 (binaryExponent x + 1) := by
  have hn : x.num.natAbs ≠ 0 := by simpa using hx
  have hn1 : ((2 ^ x.num.natAbs.log2 : ℕ) : ℚ) ≤ x.num.natAbs := by exact_mod_cast Nat.log2_self_le hn
  have hn2 : (x.num.natAbs : ℚ) < ((2 ^ (x.num.natAbs.log2 + 1) : ℕ) : ℚ) := by exact_mod_cast Nat.lt_log2_self
  have hd1 : ((2 ^ x.den.log2 : ℕ) : ℚ) ≤ x.den := by exact_mod_cast Nat.log2_self_le x.den_nz
  have hd2 : (x.den : ℚ) < ((2 ^ (x.den.log2 + 1) : ℕ) : ℚ) := by exact_mod_cast Nat.lt_log2_self
  have hdpos : (0 : ℚ) < x.den := by exact_mod_cast x.den_pos
  have habs : |x| = (x.num.natAbs : ℚ) / x.den := by
    conv_lhs => rw [← Rat.num_div_den x]
    rw [abs_div, abs_of_pos hdpos, Nat.cast_natAbs, Int.cast_abs]
  push_cast at hn1 hn2 hd1 hd2
  set a := x.num.natAbs.log2
  have hlow : pow2 ((a : Int) - x.den.log2 - 1) ≤ |x| := by
    rw [pow2_eq_zpow, habs, zpow_sub₀ two_ne_zero, zpow_sub₀ two_ne_zero, zpow_natCast, zpow_natCast, zpow_one,
      div_div, div_le_div_iff₀ (by positivity) hdpos, ← pow_succ]
    exact mul_le_mul hn1 hd2.le hdpos.le (by positivity)
  have hhigh : |x| < pow2 ((a : Int) - x.den.log2 + 1) := by
    rw [pow2_eq_zpow, habs, show (a : Int) - x.den.log2 + 1 = (a + 1 : ℕ) - (x.den.log2 : Int) by push_cast; ring,
      zpow_sub₀ two_ne_zero, zpow_natCast, zpow_natCast, div_lt_div_iff₀ hdpos (by positivity)]
    exact mul_lt_mul hn2 hd1 (by positivity) (by positivity)
  have hdef : binaryExponent x =
      if |x| < pow2 ((a : Int) - x.den.log2) then (a : Int) - x.den.log2 - 1 else (a : Int) - x.den.log2 := rfl
  rw [hdef]
  split
  · exact ⟨hlow, by simpa using ‹|x| < pow2 ((a : Int) - x.den.log2)›⟩
  · exact ⟨not_lt.mp ‹_›, hhigh⟩

/-- Rounding to an integer moves a number by at most a half. -/
theorem roundNearestEven_error (y : ℚ) : |(roundNearestEven y : ℚ) - y| ≤ 1 / 2 := by
  have h0 : ((y.floor : Int) : ℚ) ≤ y := Rat.floor_le y
  have h1 : y < ((y.floor : Int) : ℚ) + 1 := by exact_mod_cast Rat.lt_floor_add_one y
  simp only [roundNearestEven]
  split_ifs <;> push_cast <;> rw [abs_le] <;> constructor <;> linarith

/-- The rounding of R151 moves a number by at most `2^-53` of its magnitude. -/
theorem roundBinary64_error (x : ℚ) : |roundBinary64 x - x| ≤ |x| / 2 ^ 53 := by
  by_cases hx : x = 0
  · simp [roundBinary64, hx]
  · have hu := pow2_pos (binaryExponent x - 52)
    have hulp : pow2 (binaryExponent x - 52) = pow2 (binaryExponent x) / 2 ^ 52 := by
      rw [pow2_eq_zpow, pow2_eq_zpow, zpow_sub₀ two_ne_zero]; norm_cast
    simp only [roundBinary64, hx, if_false]
    have hr := roundNearestEven_error (x / pow2 (binaryExponent x - 52))
    have he := (binaryExponent_spec hx).1
    generalize roundNearestEven (x / pow2 (binaryExponent x - 52)) = n at *
    have hx' : (n : ℚ) * pow2 (binaryExponent x - 52) - x =
        (n - x / pow2 (binaryExponent x - 52)) * pow2 (binaryExponent x - 52) := by
      field_simp
    rw [hx', abs_mul, abs_of_pos hu]
    calc _ ≤ 1 / 2 * pow2 (binaryExponent x - 52) := by gcongr
      _ = pow2 (binaryExponent x) / 2 ^ 53 := by rw [hulp]; ring
      _ ≤ |x| / 2 ^ 53 := by gcongr

end Sys2Proof.Machine
end

