-- ==== Sys2Proof/Laws/Decode.lean ====
section
/-! SUPPORT. The fields of an event word. -/

namespace Sys2Proof

/-- The event word as a number (R61). -/
theorem eventWord_toNat (l : BitVec 2) (t : Tick) : (eventWord l t).toNat = l.toNat * 2 ^ 32 + t.toNat := by
  have := l.isLt
  have := t.isLt
  simp only [eventWord, BitVec.toNat_ofNat]
  omega

theorem levelOf_toNat (w : EvWord) : (levelOf w).toNat = w.toNat / 2 ^ 32 := by
  have := w.isLt
  simp only [levelOf, BitVec.extractLsb'_toNat, Nat.shiftRight_eq_div_pow]
  omega

theorem tickOf_toNat (w : EvWord) : (tickOf w).toNat = w.toNat % 2 ^ 32 := by
  simp [tickOf]

@[simp] theorem levelOf_eventWord (l : BitVec 2) (t : Tick) : levelOf (eventWord l t) = l := by
  have := t.isLt
  apply BitVec.eq_of_toNat_eq
  rw [levelOf_toNat, eventWord_toNat]
  omega

@[simp] theorem tickOf_eventWord (l : BitVec 2) (t : Tick) : tickOf (eventWord l t) = t := by
  have := t.isLt
  apply BitVec.eq_of_toNat_eq
  rw [tickOf_toNat, eventWord_toNat]
  omega

/-- A word is the event word of its two fields. -/
theorem eventWord_fields (w : EvWord) : eventWord (levelOf w) (tickOf w) = w := by
  apply BitVec.eq_of_toNat_eq
  rw [eventWord_toNat, levelOf_toNat, tickOf_toNat]
  omega

end Sys2Proof
end

