-- ==== Sys2Proof/Laws/State.lean ====
section
/-! SUPPORT. What each shared operation does to each part of the state: one lemma for each part and operation. -/

namespace Sys2Proof.Machine

section
variable (s : State) (d : Decoder) (o : Output) (st : Status) (ms : Nat) (tick lw : Tick) (bit : Bool)

@[simp] theorem send_params : (send o s).params = s.params := rfl
@[simp] theorem send_dec : (send o s).dec = s.dec := rfl
@[simp] theorem send_inputs : (send o s).inputs = s.inputs := rfl
@[simp] theorem send_out : (send o s).out = s.out ++ [o] := rfl

@[simp] theorem clearAccumulation_started : (clearAccumulation d).started = d.started := rfl
@[simp] theorem clearAccumulation_phase : (clearAccumulation d).phase = .idle := rfl
@[simp] theorem clearAccumulation_bytes : (clearAccumulation d).bytes = [] := rfl
@[simp] theorem clearAccumulation_bitCount : (clearAccumulation d).bitCount = 0 := rfl
@[simp] theorem clearAccumulation_parity : (clearAccumulation d).parity = false := rfl
@[simp] theorem clearAccumulation_calib : (clearAccumulation d).calib = none := rfl
@[simp] theorem clearAccumulation_lastLow : (clearAccumulation d).lastLow = d.lastLow := rfl
@[simp] theorem clearAccumulation_lastHigh : (clearAccumulation d).lastHigh = d.lastHigh := rfl
@[simp] theorem clearAccumulation_wdArmed : (clearAccumulation d).wdArmed = d.wdArmed := rfl

@[simp] theorem clear_params : (clear s).params = s.params := rfl
@[simp] theorem clear_inputs : (clear s).inputs = s.inputs := rfl
@[simp] theorem clear_out : (clear s).out = s.out := rfl
theorem clear_dec : (clear s).dec =
    { State.reset.dec with started := s.dec.started, wdArmed := s.dec.wdArmed } := rfl

/-- A flush of a state in which no frame is in progress sends nothing; any other sends the frame whole. -/
@[simp] theorem flush_out : (flush st s).out =
    s.out ++ (if s.dec.bytes = [] then [] else [.frame ⟨s.dec.bytes, st⟩]) := by
  cases h : s.dec.bytes <;> simp [flush, h]
@[simp] theorem flush_dec : (flush st s).dec = clearAccumulation s.dec := by
  unfold flush; split <;> rfl
@[simp] theorem flush_params : (flush st s).params = s.params := by
  unfold flush; split <;> rfl
@[simp] theorem flush_inputs : (flush st s).inputs = s.inputs := by
  unfold flush; split <;> rfl

@[simp] theorem beginFrame_params : (beginFrame s).params = s.params := rfl
@[simp] theorem beginFrame_inputs : (beginFrame s).inputs = s.inputs := rfl
@[simp] theorem beginFrame_out : (beginFrame s).out = s.out := rfl
@[simp] theorem beginFrame_dec : (beginFrame s).dec = { s.dec with
    bytes := [0x00#8], phase := .awaitingByteCalibration, bitCount := 0, parity := false, calib := none } := rfl

@[simp] theorem beginByte_params : (beginByte s).params = s.params := rfl
@[simp] theorem beginByte_inputs : (beginByte s).inputs = s.inputs := rfl
@[simp] theorem beginByte_out : (beginByte s).out = s.out := rfl
@[simp] theorem beginByte_dec : (beginByte s).dec = { s.dec with
    bytes := s.dec.bytes ++ [0x00#8], phase := .awaitingByteCalibration, bitCount := 0, parity := false,
    calib := none } := rfl

@[simp] theorem wdArm_params : (wdArm ms s).params = s.params := rfl
@[simp] theorem wdArm_inputs : (wdArm ms s).inputs = s.inputs := rfl
@[simp] theorem wdArm_out : (wdArm ms s).out = s.out ++ [.wdArm ms] := rfl
@[simp] theorem wdArm_dec : (wdArm ms s).dec = { s.dec with wdArmed := true } := rfl

@[simp] theorem wdDisarm_params : (wdDisarm s).params = s.params := rfl
@[simp] theorem wdDisarm_inputs : (wdDisarm s).inputs = s.inputs := rfl
@[simp] theorem wdDisarm_out : (wdDisarm s).out = s.out ++ [.wdDisarm] := rfl
@[simp] theorem wdDisarm_dec : (wdDisarm s).dec = { s.dec with wdArmed := false } := rfl

@[simp] theorem recordLow_params : (recordLow tick s).params = s.params := rfl
@[simp] theorem recordLow_inputs : (recordLow tick s).inputs = s.inputs := rfl
@[simp] theorem recordLow_out : (recordLow tick s).out = s.out := rfl
@[simp] theorem recordLow_dec : (recordLow tick s).dec = { s.dec with lastLow := some tick } := rfl

@[simp] theorem recordHigh_params : (recordHigh tick s).params = s.params := rfl
@[simp] theorem recordHigh_inputs : (recordHigh tick s).inputs = s.inputs := rfl
@[simp] theorem recordHigh_out : (recordHigh tick s).out = s.out := rfl
@[simp] theorem recordHigh_dec : (recordHigh tick s).dec = { s.dec with lastHigh := some tick } := rfl

@[simp] theorem calibrate_params : (calibrate lw s).params = s.params := rfl
@[simp] theorem calibrate_inputs : (calibrate lw s).inputs = s.inputs := rfl
@[simp] theorem calibrate_out : (calibrate lw s).out = s.out := rfl
@[simp] theorem calibrate_dec : (calibrate lw s).dec =
    { s.dec with calib := some lw, phase := .decodingBits } := rfl

@[simp] theorem takeBit_params : (takeBit bit s).params = s.params := rfl
@[simp] theorem takeBit_inputs : (takeBit bit s).inputs = s.inputs := rfl
@[simp] theorem takeBit_out : (takeBit bit s).out = s.out := rfl
@[simp] theorem takeBit_dec : (takeBit bit s).dec = { s.dec with
    bytes := if s.dec.bitCount < 8 then shiftLast bit s.dec.bytes else s.dec.bytes
    bitCount := s.dec.bitCount + 1
    parity := s.dec.parity ^^ bit } := rfl
end

/-- A state is its four parts. -/
theorem State.eq_of_parts {s t : State} (hp : s.params = t.params) (hd : s.dec = t.dec)
    (hi : s.inputs = t.inputs) (ho : s.out = t.out) : s = t := by
  cases s; cases t; simp_all

/-- Shifting a bit in changes the last byte only. -/
@[simp] theorem shiftLast_append (bit : Bool) (done : List Byte) (b : Byte) :
    shiftLast bit (done ++ [b]) = done ++ [shiftBit b bit] := by
  induction done with
  | nil => rfl
  | cons a as ih =>
    cases as with
    | nil => rfl
    | cons a' as' => exact congrArg (a :: ·) ih

@[simp] theorem shiftBit_true (b : Byte) : shiftBit b true = b * 2#8 + 1#8 := rfl
@[simp] theorem shiftBit_false (b : Byte) : shiftBit b false = b * 2#8 := by simp [shiftBit]

/-- While fewer than eight bits have been received no bit is lost: the doubling does not wrap (R87). -/
theorem shiftBit_toNat {b : Byte} (h : b.toNat < 128) (bit : Bool) :
    (shiftBit b bit).toNat = b.toNat * 2 + bit.toNat := by
  cases bit <;> simp <;> omega

/-- The parity of a byte's bits takes a bit that is shifted in (R114). -/
theorem parityOf_shiftBit {b : Byte} (h : b.toNat < 128) (bit : Bool) :
    parityOf (dataBits (shiftBit b bit)) = (parityOf (dataBits b) ^^ bit) := by
  revert h bit; revert b; decide

theorem parityOf_append (bits : List Bool) (bit : Bool) : parityOf (bits ++ [bit]) = (parityOf bits ^^ bit) := by
  simp [parityOf, addParity]

end Sys2Proof.Machine
end

