-- ==== Sys2Proof/Laws/Handlers.lean ====
section
/-! SUPPORT. What each event handler does, case by case, and one inversion lemma for all operations. -/

namespace Sys2Proof.Machine

section
variable {s : State} {tick h l lw : Tick}

theorem flush_eq (st : Status) (s : State) :
    flush st s = { s with dec := clearAccumulation s.dec, out := s.out ++ pendingFrame s st } :=
  State.eq_of_parts (by simp) (by simp) (by simp) (by simp [pendingFrame])

@[simp] theorem pendingFrame_wdDisarm (st : Status) (s : State) :
    pendingFrame (wdDisarm s) st = pendingFrame s st := rfl

@[simp] theorem pendingFrame_takeBit {st : Status} {s : State} {bit : Bool} (hc : s.dec.bitCount = 8) :
    pendingFrame (takeBit bit s) st = pendingFrame s st := by
  simp [pendingFrame, hc]

@[simp] theorem classifyBit_wdDisarm (s : State) (lw : Tick) : classifyBit (wdDisarm s) lw = classifyBit s lw := rfl

@[simp] theorem highWidth_none (hh : s.dec.lastHigh = none) : highWidth s tick = none := by simp [highWidth, hh]
@[simp] theorem highWidth_some (hh : s.dec.lastHigh = some h) : highWidth s tick = some (tickDiff h tick) := by
  simp [highWidth, hh]
@[simp] theorem lowWidth_none (hl : s.dec.lastLow = none) : lowWidth s tick = none := by simp [lowWidth, hl]
@[simp] theorem lowWidth_some (hl : s.dec.lastLow = some l) : lowWidth s tick = some (tickDiff l tick) := by
  simp [lowWidth, hl]

/-- A LOW event that ends no gap: only the watchdog command and the tick (R103, R104). -/
def lowTickOnly (tick : Tick) (s : State) : State := { s with
  dec := { s.dec with lastLow := some tick, wdArmed := false }
  out := s.out ++ [.wdDisarm] }

/-- A packet-start gap (R101). -/
def lowPacketStart (tick : Tick) (s : State) : State := { s with
  dec := { s.dec with
    phase := .awaitingByteCalibration, bytes := [0x00#8], bitCount := 0, parity := false, calib := none
    lastLow := some tick, wdArmed := false }
  out := s.out ++ [.wdDisarm] ++ pendingFrame s .ok }

/-- A byte-start gap after nine bits (R102). -/
def lowByteStart (tick : Tick) (s : State) : State := { s with
  dec := { s.dec with
    phase := .awaitingByteCalibration, bytes := s.dec.bytes ++ [0x00#8], bitCount := 0, parity := false
    calib := none, lastLow := some tick, wdArmed := false }
  out := s.out ++ [.wdDisarm] }

/-- A byte-start gap after another number of bits (R102). -/
def lowBitCountError (tick : Tick) (s : State) : State := { s with
  dec := { s.dec with
    phase := .idle, bytes := [], bitCount := 0, parity := false, calib := none
    lastLow := some tick, wdArmed := false }
  out := s.out ++ [.wdDisarm] ++ pendingFrame s .bitCountError }

theorem onLow_no_high (hh : s.dec.lastHigh = none) : onLow tick s = lowTickOnly tick s := by
  simp [onLow, hh, syncOnGap]; rfl

theorem onLow_packet_start (hh : s.dec.lastHigh = some h) (hw : s.params.packetStartTicks < (tickDiff h tick).toNat) :
    onLow tick s = lowPacketStart tick s := by
  simp [onLow, hh, syncOnGap, exceedsPacketStart, hw, flush_eq, lowPacketStart]; simp [beginFrame, recordLow, clearAccumulation]

theorem onLow_byte_start (hh : s.dec.lastHigh = some h)
    (hps : (tickDiff h tick).toNat ≤ s.params.packetStartTicks)
    (hbs : s.params.byteStartTicks < (tickDiff h tick).toNat) (hp : s.dec.phase ≠ .idle) (hc : s.dec.bitCount = 9) :
    onLow tick s = lowByteStart tick s := by
  simp [onLow, hh, syncOnGap, exceedsPacketStart, exceedsByteStart, Nat.not_lt.mpr hps, hbs, hp, hc]; rfl

theorem onLow_bitCount_error (hh : s.dec.lastHigh = some h)
    (hps : (tickDiff h tick).toNat ≤ s.params.packetStartTicks)
    (hbs : s.params.byteStartTicks < (tickDiff h tick).toNat) (hp : s.dec.phase ≠ .idle) (hc : s.dec.bitCount ≠ 9) :
    onLow tick s = lowBitCountError tick s := by
  simp [onLow, hh, syncOnGap, exceedsPacketStart, exceedsByteStart, Nat.not_lt.mpr hps, hbs, hp, hc, flush_eq, lowBitCountError]
  simp [recordLow, clearAccumulation]

theorem onLow_no_gap (hh : s.dec.lastHigh = some h)
    (hps : (tickDiff h tick).toNat ≤ s.params.packetStartTicks)
    (hn : (tickDiff h tick).toNat ≤ s.params.byteStartTicks ∨ s.dec.phase = .idle) :
    onLow tick s = lowTickOnly tick s := by
  have hno : ¬ (s.params.byteStartTicks < (tickDiff h tick).toNat ∧ ¬ s.dec.phase = .idle) := by
    rintro ⟨hb, hp⟩; rcases hn with hn | hn
    · omega
    · exact hp hn
  simp [onLow, hh, syncOnGap, exceedsPacketStart, exceedsByteStart, Nat.not_lt.mpr hps]
  rw [if_neg fun hc => hno ⟨of_decide_eq_true hc.1, hc.2⟩]; rfl

/-- Everything a LOW event can do. -/
theorem onLow_cases (s : State) (tick : Tick) :
    (onLow tick s = lowTickOnly tick s ∧ (∀ h, s.dec.lastHigh = some h →
      (tickDiff h tick).toNat ≤ s.params.packetStartTicks ∧
      ((tickDiff h tick).toNat ≤ s.params.byteStartTicks ∨ s.dec.phase = .idle))) ∨
    ∃ h, s.dec.lastHigh = some h ∧
      ((s.params.packetStartTicks < (tickDiff h tick).toNat ∧ onLow tick s = lowPacketStart tick s) ∨
       ((tickDiff h tick).toNat ≤ s.params.packetStartTicks ∧ s.params.byteStartTicks < (tickDiff h tick).toNat ∧
         s.dec.phase ≠ .idle ∧
         ((s.dec.bitCount = 9 ∧ onLow tick s = lowByteStart tick s) ∨
          (s.dec.bitCount ≠ 9 ∧ onLow tick s = lowBitCountError tick s)))) := by
  cases hh : s.dec.lastHigh with
  | none => exact .inl ⟨onLow_no_high hh, by simp⟩
  | some h =>
    by_cases hps : s.params.packetStartTicks < (tickDiff h tick).toNat
    · exact .inr ⟨h, rfl, .inl ⟨hps, onLow_packet_start hh hps⟩⟩
    · have hps' := Nat.not_lt.mp hps
      by_cases hbs : s.params.byteStartTicks < (tickDiff h tick).toNat
      · by_cases hp : s.dec.phase = .idle
        · exact .inl ⟨onLow_no_gap hh hps' (.inr hp), by simp [hps', hp]⟩
        · by_cases hc : s.dec.bitCount = 9
          · exact .inr ⟨h, rfl, .inr ⟨hps', hbs, hp, .inl ⟨hc, onLow_byte_start hh hps' hbs hp hc⟩⟩⟩
          · exact .inr ⟨h, rfl, .inr ⟨hps', hbs, hp, .inr ⟨hc, onLow_bitCount_error hh hps' hbs hp hc⟩⟩⟩
      · exact .inl ⟨onLow_no_gap hh hps' (.inl (Nat.not_lt.mp hbs)), by simp [hps', Nat.not_lt.mp hbs]⟩

/-- A HIGH event that ends no pulse of a frame (R117). -/
def highTickOnly (tick : Tick) (s : State) : State := { s with
  dec := { s.dec with lastHigh := some tick, wdArmed := false }
  out := s.out ++ [.wdDisarm] }

/-- The calibration pulse (R111). -/
def highCalibrate (lw tick : Tick) (s : State) : State := { s with
  dec := { s.dec with
    phase := .decodingBits, calib := some lw, lastHigh := some tick, wdArmed := false }
  out := s.out ++ [.wdDisarm] }

/-- A data bit (R113, R114). -/
def highDataBit (bit : Bool) (tick : Tick) (s : State) : State := { s with
  dec := { s.dec with
    bytes := shiftLast bit s.dec.bytes, bitCount := s.dec.bitCount + 1, parity := s.dec.parity ^^ bit
    lastHigh := some tick, wdArmed := false }
  out := s.out ++ [.wdDisarm] }

/-- A ninth bit that makes the parity even (R115). -/
def highValidByte (tick : Tick) (s : State) : State := { s with
  dec := { s.dec with bitCount := 9, parity := false, lastHigh := some tick, wdArmed := true }
  out := s.out ++ [.wdDisarm, .wdArm s.params.watchdogMs] }

/-- A HIGH event that flushes the frame: an odd ninth bit (R115) or a tenth bit (R116). -/
def highError (status : Status) (tick : Tick) (s : State) : State := { s with
  dec := { s.dec with
    phase := .idle, bytes := [], bitCount := 0, parity := false, calib := none
    lastHigh := some tick, wdArmed := false }
  out := s.out ++ [.wdDisarm] ++ pendingFrame s status }

theorem onHigh_tick_only (hn : s.dec.lastLow = none ∨ s.dec.phase = .idle) :
    onHigh tick s = highTickOnly tick s := by
  rcases hn with hl | hp
  · simp [onHigh, hl, lowPulse]; rfl
  · cases hl : s.dec.lastLow <;> simp [onHigh, hl, hp, lowPulse] <;> rfl

theorem onHigh_calibrate (hl : s.dec.lastLow = some l) (hp : s.dec.phase = .awaitingByteCalibration) :
    onHigh tick s = highCalibrate (tickDiff l tick) tick s := by
  simp [onHigh, hl, hp, lowPulse]; rfl

theorem onHigh_data_bit (hl : s.dec.lastLow = some l) (hp : s.dec.phase = .decodingBits) (hc : s.dec.bitCount < 8) :
    onHigh tick s = highDataBit (classifyBit s (tickDiff l tick)) tick s := by
  have h9 : ¬ Config.bitsPerByte ≤ s.dec.bitCount := by simp only [Config.bitsPerByte]; omega
  have h8 : ¬ s.dec.bitCount + 1 = Config.bitsPerByte := by simp only [Config.bitsPerByte]; omega
  simp only [onHigh, lowWidth_some hl, lowPulse, wdDisarm_dec, hp, ge_iff_le, h9, if_false, closeByte, takeBit_dec, h8,
    classifyBit_wdDisarm]
  apply State.eq_of_parts <;> simp [highDataBit, hc]

theorem onHigh_ninth_bit (hl : s.dec.lastLow = some l) (hp : s.dec.phase = .decodingBits) (hc : s.dec.bitCount = 8) :
    onHigh tick s =
      if (s.dec.parity ^^ classifyBit s (tickDiff l tick)) = true then highError .parityError tick s
      else highValidByte tick s := by
  have h9 : ¬ Config.bitsPerByte ≤ 8 := by decide
  have h8 : 8 + 1 = Config.bitsPerByte := rfl
  simp only [onHigh, lowWidth_some hl, lowPulse, wdDisarm_dec, hp, hc, ge_iff_le, h9, if_false, closeByte, takeBit_dec,
    h8, if_true, classifyBit_wdDisarm]
  split
  · apply State.eq_of_parts <;> simp [highError, hc, pendingFrame, clearAccumulation]
  · apply State.eq_of_parts <;> simp_all [highValidByte]

theorem onHigh_tenth_bit (hl : s.dec.lastLow = some l) (hp : s.dec.phase = .decodingBits) (hc : 9 ≤ s.dec.bitCount) :
    onHigh tick s = highError .bitCountError tick s := by
  simp [onHigh, hl, hp, lowPulse, hc, flush_eq, highError]
  simp [recordHigh, clearAccumulation]

/-- Everything a HIGH event can do. -/
theorem onHigh_cases (s : State) (tick : Tick) :
    ((s.dec.lastLow = none ∨ s.dec.phase = .idle) ∧ onHigh tick s = highTickOnly tick s) ∨
    ∃ l, s.dec.lastLow = some l ∧
      ((s.dec.phase = .awaitingByteCalibration ∧ onHigh tick s = highCalibrate (tickDiff l tick) tick s) ∨
       (s.dec.phase = .decodingBits ∧
        ((s.dec.bitCount < 8 ∧ onHigh tick s = highDataBit (classifyBit s (tickDiff l tick)) tick s) ∨
         (s.dec.bitCount = 8 ∧ (s.dec.parity ^^ classifyBit s (tickDiff l tick)) = true ∧
           onHigh tick s = highError .parityError tick s) ∨
         (s.dec.bitCount = 8 ∧ (s.dec.parity ^^ classifyBit s (tickDiff l tick)) = false ∧
           onHigh tick s = highValidByte tick s) ∨
         (9 ≤ s.dec.bitCount ∧ onHigh tick s = highError .bitCountError tick s)))) := by
  cases hl : s.dec.lastLow with
  | none => exact .inl ⟨.inl rfl, onHigh_tick_only (.inl hl)⟩
  | some l =>
    cases hp : s.dec.phase with
    | idle => exact .inl ⟨.inr rfl, onHigh_tick_only (.inr hp)⟩
    | awaitingByteCalibration => exact .inr ⟨l, rfl, .inl ⟨rfl, onHigh_calibrate hl hp⟩⟩
    | decodingBits =>
      refine .inr ⟨l, rfl, .inr ⟨rfl, ?_⟩⟩
      rcases Nat.lt_trichotomy s.dec.bitCount 8 with hc | hc | hc
      · exact .inl ⟨hc, onHigh_data_bit hl hp hc⟩
      · have h9 := onHigh_ninth_bit (tick := tick) hl hp hc
        cases hx : (s.dec.parity ^^ classifyBit s (tickDiff l tick)) with
        | true => exact .inr (.inl ⟨hc, rfl, by simpa [hx] using h9⟩)
        | false => exact .inr (.inr (.inl ⟨hc, rfl, by simpa [hx] using h9⟩))
      · exact .inr (.inr (.inr ⟨hc, onHigh_tenth_bit hl hp hc⟩))

/-- A TIMEOUT (R125). -/
theorem onTimeout_eq (s : State) : onTimeout s = { s with
    dec := { clearAccumulation s.dec with wdArmed := false }, out := s.out ++ pendingFrame s .ok } := by
  simp [onTimeout, flush_eq]

/-- START, STOP and RESET without a driver failure (R135, R136, R190). -/
theorem restart_eq (b : Bool) (s : State) : restart b s = { s with
    dec := { State.reset.dec with started := b }, out := s.out ++ [.wdDisarm] } := rfl

end

/-- The meaning of an operation, as a function: every operation answers a next state. -/
def effect (i : Instr) (s : State) : State :=
  match i with
  | .low tick => whenStarted (onLow tick) s
  | .high tick => whenStarted (onHigh tick) s
  | .timeout _ => whenStarted onTimeout s
  | .stop => restart false s
  | .start => if s.params.driverAvailable then restart true s else send .driverUnavailable s
  | .reset => restart false s

/-- Every operation answers the next state that `effect` names; proofs about `exec` are proofs about `effect`. -/
theorem exec_eq_effect (i : Instr) (s : State) : exec i s = .next (effect i s) := by
  cases i <;> simp [exec, effect, execLow, execHigh, execTimeout, execStop, execStart, execReset]
  split <;> rfl

theorem exec_next_iff {i : Instr} {s t : State} : exec i s = .next t ↔ effect i s = t := by
  simp [exec_eq_effect]

/-- Everything an operation can do: nothing (an event while stopped), what its handler does while started, or what
the control operations do. -/
theorem effect_cases (i : Instr) (s : State) :
    (s.dec.started = false ∧ i.isEvent = true ∧ effect i s = s) ∨
    (s.dec.started = true ∧ ∃ tick, i = .low tick ∧ effect i s = onLow tick s) ∨
    (s.dec.started = true ∧ ∃ tick, i = .high tick ∧ effect i s = onHigh tick s) ∨
    (s.dec.started = true ∧ ∃ tick, i = .timeout tick ∧ effect i s = onTimeout s) ∨
    (i.isEvent = false ∧ ((∃ b, (b = true → s.params.driverAvailable = true) ∧ effect i s = restart b s) ∨
      effect i s = send .driverUnavailable s)) := by
  cases i with
  | low t => cases hs : s.dec.started <;> simp [effect, whenStarted, hs, Instr.isEvent]
  | high t => cases hs : s.dec.started <;> simp [effect, whenStarted, hs, Instr.isEvent]
  | timeout t => cases hs : s.dec.started <;> simp [effect, whenStarted, hs, Instr.isEvent]
  | stop => simp [effect, Instr.isEvent]
  | start => cases hs : s.params.driverAvailable <;> simp [effect, Instr.isEvent, hs]
  | reset => simp [effect, Instr.isEvent]

end Sys2Proof.Machine
end

