-- ==== Sys2Proof/Laws/Output.lean ====
section
/-! SUPPORT. What an operation sends: the outputs only grow, and each operation appends one of a few lists. -/

namespace Sys2Proof.Machine

@[simp] theorem framesOf_nil : framesOf [] = [] := rfl
@[simp] theorem framesOf_append (a b : List Output) : framesOf (a ++ b) = framesOf a ++ framesOf b := by
  simp [framesOf]
@[simp] theorem framesOf_frame (f : Frame) (o : List Output) : framesOf (.frame f :: o) = f :: framesOf o := rfl
@[simp] theorem framesOf_wdArm (ms : Nat) (o : List Output) : framesOf (.wdArm ms :: o) = framesOf o := rfl
@[simp] theorem framesOf_wdDisarm (o : List Output) : framesOf (.wdDisarm :: o) = framesOf o := rfl
@[simp] theorem framesOf_driverUnavailable (o : List Output) :
    framesOf (.driverUnavailable :: o) = framesOf o := rfl

@[simp] theorem framesOf_pendingFrame (s : State) (st : Status) :
    framesOf (pendingFrame s st) = if s.dec.bytes = [] then [] else [⟨s.dec.bytes, st⟩] := by
  unfold pendingFrame; split <;> rfl

@[simp] theorem watchdogCommands_pendingFrame (s : State) (st : Status) :
    watchdogCommands (pendingFrame s st) = [] := by
  unfold pendingFrame; split <;> rfl

theorem watchdogCommands_append (a b : List Output) :
    watchdogCommands (a ++ b) = watchdogCommands a ++ watchdogCommands b := by
  simp [watchdogCommands]

@[simp] theorem wdArm_not_mem_pendingFrame (s : State) (st : Status) (ms : Nat) :
    Output.wdArm ms ∉ pendingFrame s st := by
  unfold pendingFrame; split <;> simp

theorem sentBetween_of_append {s t : State} {o : List Output} (h : t.out = s.out ++ o) : sentBetween s t = o := by
  simp [sentBetween, h]

theorem emitted_of_append {s t : State} {o : List Output} (h : t.out = s.out ++ o) :
    emitted s t = framesOf o := by
  rw [emitted, sentBetween_of_append h]

@[simp] theorem emitted_self (s : State) : emitted s s = [] :=
  emitted_of_append (o := []) (by simp)

section
variable (s : State) (tick lw : Tick) (st : Status) (bit b : Bool)

@[simp] theorem sentBetween_self : sentBetween s s = [] := sentBetween_of_append (by simp)
@[simp] theorem sentBetween_lowTickOnly : sentBetween s (lowTickOnly tick s) = [.wdDisarm] :=
  sentBetween_of_append rfl
@[simp] theorem sentBetween_lowPacketStart :
    sentBetween s (lowPacketStart tick s) = .wdDisarm :: pendingFrame s .ok :=
  sentBetween_of_append (by simp [lowPacketStart])
@[simp] theorem sentBetween_lowByteStart : sentBetween s (lowByteStart tick s) = [.wdDisarm] :=
  sentBetween_of_append rfl
@[simp] theorem sentBetween_lowBitCountError :
    sentBetween s (lowBitCountError tick s) = .wdDisarm :: pendingFrame s .bitCountError :=
  sentBetween_of_append (by simp [lowBitCountError])
@[simp] theorem sentBetween_highTickOnly : sentBetween s (highTickOnly tick s) = [.wdDisarm] :=
  sentBetween_of_append rfl
@[simp] theorem sentBetween_highCalibrate : sentBetween s (highCalibrate lw tick s) = [.wdDisarm] :=
  sentBetween_of_append rfl
@[simp] theorem sentBetween_highDataBit : sentBetween s (highDataBit bit tick s) = [.wdDisarm] :=
  sentBetween_of_append rfl
@[simp] theorem sentBetween_highValidByte :
    sentBetween s (highValidByte tick s) = [.wdDisarm, .wdArm s.params.watchdogMs] :=
  sentBetween_of_append rfl
@[simp] theorem sentBetween_highError :
    sentBetween s (highError st tick s) = .wdDisarm :: pendingFrame s st :=
  sentBetween_of_append (by simp [highError])
@[simp] theorem sentBetween_onTimeout : sentBetween s (onTimeout s) = pendingFrame s .ok :=
  sentBetween_of_append (by simp [onTimeout_eq])
@[simp] theorem sentBetween_restart : sentBetween s (restart b s) = [.wdDisarm] :=
  sentBetween_of_append rfl
@[simp] theorem sentBetween_send (o : Output) : sentBetween s (send o s) = [o] := sentBetween_of_append rfl
end

/-- Each operation appends to what was sent before. -/
theorem effect_out (i : Instr) (s : State) : (effect i s).out = s.out ++ sentBetween s (effect i s) := by
  have key : ∀ t : State, (∃ o, t.out = s.out ++ o) → t.out = s.out ++ sentBetween s t := by
    rintro t ⟨o, ho⟩; rw [sentBetween_of_append ho, ho]
  apply key
  rcases effect_cases i s with ⟨_, _, he⟩ | ⟨_, tick, _, he⟩ | ⟨_, tick, _, he⟩ | ⟨_, tick, _, he⟩ | ⟨_, ⟨b, _, he⟩ | he⟩
  · exact ⟨[], by simp [he]⟩
  · rcases onLow_cases s tick with ⟨h, _⟩ | ⟨_, _, ⟨_, h⟩ | ⟨_, _, _, ⟨_, h⟩ | ⟨_, h⟩⟩⟩ <;>
      rw [he, h]
    · exact ⟨_, rfl⟩
    · exact ⟨_, List.append_assoc ..⟩
    · exact ⟨_, rfl⟩
    · exact ⟨_, List.append_assoc ..⟩
  · rcases onHigh_cases s tick with
      ⟨_, h⟩ | ⟨_, _, ⟨_, h⟩ | ⟨_, ⟨_, h⟩ | ⟨_, _, h⟩ | ⟨_, _, h⟩ | ⟨_, h⟩⟩⟩ <;> rw [he, h]
    · exact ⟨_, rfl⟩
    · exact ⟨_, rfl⟩
    · exact ⟨_, rfl⟩
    · exact ⟨_, List.append_assoc ..⟩
    · exact ⟨_, rfl⟩
    · exact ⟨_, List.append_assoc ..⟩
  · exact ⟨_, by rw [he, onTimeout_eq]⟩
  · exact ⟨_, by rw [he]; rfl⟩
  · exact ⟨_, by rw [he]; rfl⟩

/-- No operation writes the parameters or the waiting inputs. -/
theorem effect_params_inputs (i : Instr) (s : State) :
    (effect i s).params = s.params ∧ (effect i s).inputs = s.inputs := by
  rcases effect_cases i s with ⟨_, _, he⟩ | ⟨_, tick, _, he⟩ | ⟨_, tick, _, he⟩ | ⟨_, tick, _, he⟩ | ⟨_, ⟨b, _, he⟩ | he⟩
  · simp [he]
  · rcases onLow_cases s tick with ⟨h, _⟩ | ⟨_, _, ⟨_, h⟩ | ⟨_, _, _, ⟨_, h⟩ | ⟨_, h⟩⟩⟩ <;> rw [he, h] <;> exact ⟨rfl, rfl⟩
  · rcases onHigh_cases s tick with
      ⟨_, h⟩ | ⟨_, _, ⟨_, h⟩ | ⟨_, ⟨_, h⟩ | ⟨_, _, h⟩ | ⟨_, _, h⟩ | ⟨_, h⟩⟩⟩ <;> rw [he, h] <;> exact ⟨rfl, rfl⟩
  · rw [he, onTimeout_eq]; exact ⟨rfl, rfl⟩
  · rw [he]; exact ⟨rfl, rfl⟩
  · rw [he]; exact ⟨rfl, rfl⟩

end Sys2Proof.Machine
end

