-- ==== Sys2Proof/Laws/PerInstr.lean ====
section
/-! SUPPORT. Families of statements with one lemma for each operation. -/

namespace Sys2Proof.Laws.LegalWord

/-- The operation is well formed and its port word is a legal one (R69, R73). -/
def Statement (i : Instr) : Prop := i.wellFormed = true ∧ (encode i).wellFormed = true

theorem low (tick : Tick) : Statement (.low tick) := by
  have := tick.isLt
  refine ⟨rfl, ?_⟩
  simp [encode, PortInput.wellFormed, eventWord_toNat]; omega

theorem high (tick : Tick) : Statement (.high tick) := by
  have := tick.isLt
  refine ⟨rfl, ?_⟩
  simp [encode, PortInput.wellFormed, eventWord_toNat]; omega

theorem timeout (tick : Tick) : Statement (.timeout tick) := by
  have := tick.isLt
  refine ⟨rfl, ?_⟩
  simp [encode, PortInput.wellFormed, eventWord_toNat]; omega

theorem stop : Statement .stop := ⟨rfl, rfl⟩

theorem start : Statement .start := ⟨rfl, rfl⟩

theorem reset : Statement .reset := ⟨rfl, rfl⟩

end Sys2Proof.Laws.LegalWord
end

