-- ==== Sys2Proof/Laws/Trace.lean ====
section
/-! SUPPORT. Traces: the fold as a function, appending, and the tick arithmetic of the generators of R72. -/

namespace Sys2Proof.Machine

/-- The state after a trace. -/
def effects (is : List Instr) (s : State) : State := is.foldl (fun s i => effect i s) s

@[simp] theorem effects_nil (s : State) : effects [] s = s := rfl
@[simp] theorem effects_cons (i : Instr) (is : List Instr) (s : State) :
    effects (i :: is) s = effects is (effect i s) := rfl
@[simp] theorem effects_append (a b : List Instr) (s : State) :
    effects (a ++ b) s = effects b (effects a s) := List.foldl_append

/-- Every trace runs to its end; proofs about `execTrace` are proofs about `effects`. -/
theorem execTrace_eq_effects (is : List Instr) (s : State) : execTrace is s = .next (effects is s) := by
  induction is generalizing s with
  | nil => rfl
  | cons i is ih => simp [execTrace, exec_eq_effect, ih]

theorem execTrace_next_iff {is : List Instr} {s t : State} : execTrace is s = .next t ↔ effects is s = t := by
  simp [execTrace_eq_effects]

theorem effects_params_inputs (is : List Instr) (s : State) :
    (effects is s).params = s.params ∧ (effects is s).inputs = s.inputs := by
  induction is generalizing s with
  | nil => exact ⟨rfl, rfl⟩
  | cons i is ih =>
    rw [effects_cons, (ih _).1, (ih _).2]
    exact effect_params_inputs i s

/-- A trace appends what its operations send. -/
theorem effects_out (is : List Instr) (s : State) : (effects is s).out = s.out ++ sentBetween s (effects is s) := by
  have : ∃ o, (effects is s).out = s.out ++ o := by
    induction is generalizing s with
    | nil => exact ⟨[], by simp⟩
    | cons i is ih =>
      obtain ⟨o, ho⟩ := ih (effect i s)
      exact ⟨_, by rw [effects_cons, ho, effect_out, List.append_assoc]⟩
  obtain ⟨o, ho⟩ := this
  rw [sentBetween_of_append ho, ho]

/-- The Frames of a trace are those of its parts, in order. -/
theorem emitted_trans {s u : State} (is : List Instr) (hu : u.out = s.out ++ sentBetween s u) :
    emitted s (effects is u) = emitted s u ++ emitted u (effects is u) := by
  have h := effects_out is u
  rw [hu, List.append_assoc] at h
  rw [emitted_of_append h, framesOf_append]; rfl

theorem later_later (t : Tick) (m n : Nat) : later (later t m) n = later t (m + n) := by
  simp [later, BitVec.ofNat_add, add_assoc]

/-- The width between two ticks of a trace, when it does not wrap. -/
theorem tickDiff_later {t : Tick} {m n : Nat} (h : m ≤ n) (hn : n - m < 2 ^ 32) :
    (tickDiff (later t m) (later t n)).toNat = n - m := by
  obtain ⟨k, rfl⟩ := Nat.exists_eq_add_of_le h
  have : tickDiff (later t m) (later t (m + k)) = BitVec.ofNat 32 k := by
    simp [tickDiff, later, BitVec.ofNat_add]
  rw [this]; simp at hn ⊢; omega

/-- The end tick of a byte cut after nine bits is that of the byte. -/
theorem byteBitsEnd_nine (p : Timing) (t : Tick) (b : Byte) : byteBitsEnd p t b 9 = byteEnd p t b := rfl

/-- The end tick of `BYTE(t, b)[k bits]` is the tick of the last event kept, a HIGH (R72). -/
theorem byteTraceBits_getLast? (p : Timing) (t : Tick) (b : Byte) {k : Nat} (hk : k ≤ 9) :
    (byteTraceBits p t b k).getLast? = some (.high (byteBitsEnd p t b k)) := by
  interval_cases k <;>
    simp [byteTraceBits, byteTrace, byteTraceWith, byteBitsEnd, dataBits, bitPulses, later_later] <;>
    (congr 1; ring)

/-- The end tick of `BYTE(t, b, par)` is the tick of its last event (R72). -/
theorem byteTraceWith_getLast? (p : Timing) (t : Tick) (b : Byte) (par : Bool) :
    (byteTraceWith p t b par).getLast? = some (.high (byteEndWith p t par)) := by
  simp [byteTraceWith, byteEndWith, dataBits, bitPulses, later_later]
  congr 1; ring

/-- A run of pulses followed by another begins where the first ends. -/
theorem pulseEvents_append (ps qs : List Pulse) (h : Tick) :
    pulseEvents h (ps ++ qs) = pulseEvents h ps ++ pulseEvents (pulsesEnd h ps) qs := by
  induction ps generalizing h with
  | nil => rfl
  | cons p ps ih => simp [pulseEvents, pulsesEnd, ih]

theorem pulsesEnd_append (ps qs : List Pulse) (h : Tick) :
    pulsesEnd h (ps ++ qs) = pulsesEnd (pulsesEnd h ps) qs := by
  induction ps generalizing h with
  | nil => rfl
  | cons p ps ih => simp [pulsesEnd, ih]

theorem packetPulses_cons (b : SentByte) (bs : List SentByte) :
    packetPulses (b :: bs) = (b.start :: b.bits) ++ packetPulses bs := rfl

end Sys2Proof.Machine
end

