-- ==== Sys2Proof/Laws/Step.lean ====
section
/-! SUPPORT. What a step can do, and the run of the host's machine unfolded by one step. -/

namespace Sys2Proof.Machine

/-- Everything a step can do: wait, perhaps after taking an `rst` bit at 0, be refused, or run one operation. -/
theorem step_cases (s : State) :
    (s.params.wellFormed = false ∧ step s = .refused .illFormedParameters) ∨
    (s.params.wellFormed = true ∧ s.inputs = [] ∧ step s = .next s) ∨
    ∃ p rest, s.params.wellFormed = true ∧ s.inputs = p :: rest ∧
      ((∃ i, decode p = .ok i ∧ step s = .next (effect i { s with inputs := rest })) ∨
       (decode p = .error .reservedLevel ∧ step s = .refused .reservedLevelCode) ∨
       (decode p = .error .resetNotAsserted ∧ step s = .next { s with inputs := rest })) := by
  cases hw : s.params.wellFormed with
  | false => exact .inl ⟨rfl, by simp [step, fetch, hw]⟩
  | true =>
    cases hi : s.inputs with
    | nil => exact .inr (.inl ⟨rfl, rfl, by simp [step, fetch, hw, hi]⟩)
    | cons p rest =>
      refine .inr (.inr ⟨p, rest, rfl, rfl, ?_⟩)
      cases hd : decode p with
      | ok i => exact .inl ⟨i, rfl, by simp [step, fetch, hw, hi, hd, exec_eq_effect]⟩
      | error e =>
        cases e with
        | reservedLevel => exact .inr (.inl ⟨rfl, by simp [step, fetch, hw, hi, hd]⟩)
        | resetNotAsserted => exact .inr (.inr ⟨rfl, by simp [step, fetch, hw, hi, hd]⟩)

/-- A run whose first step answers a next state goes on from there. -/
theorem run_succ_of_next (M : Host.Core) {n : Nat} {s t : M.State} (h : M.step s = .next t) :
    M.run (n + 1) s = M.run n t := by
  simp only [Host.Core.run, h]

theorem core_run_succ_of_next {n : Nat} {s t : State} (h : step s = .next t) :
    Host.Core.run Sys2Proof.core (n + 1) s = Host.Core.run Sys2Proof.core n t :=
  run_succ_of_next Sys2Proof.core h

end Sys2Proof.Machine
end

