-- ==== Sys2Proof/Tests/Slice0.lean ====
section
/-! SUPPORT. The model's own tests, with results taken from 95_test_vectors.md (the vector's name stands in the
docstring), and a witness for the hypotheses of each statement that has some. -/

namespace Sys2Proof.Tests

open Sys2Proof Sys2Proof.Machine

/-- A state with the default parameters, nothing waiting and nothing sent, in the order of the spec's tuples. -/
abbrev st (started : Bool) (phase : Phase) (bytes : List Byte) (bitCount : Nat) (parity : Bool)
    (calib lastLow lastHigh : Option Tick) (wdArmed : Bool) : State :=
  { State.reset with dec := ⟨started, phase, bytes, bitCount, parity, calib, lastLow, lastHigh, wdArmed⟩ }

/-- The next state of one operation, if there is one. -/
abbrev after (i : Instr) (s : State) : Option State :=
  match exec i s with
  | .next t => some t
  | .fault _ => none
  | .refused _ => none

/-- What one operation does: the record `S` after it and what it sent. -/
abbrev result (i : Instr) (s : State) : Option (Decoder × List Output) := (after i s).map fun t => (t.dec, t.out)

/-- Two bytes received, the second complete and valid, the watchdog armed (state before VL5, VT1, VC2, VC3). -/
abbrev armed : State := st true .decodingBits [0x04, 0x00] 9 false (some 60) (some 8390) (some 8480) true
/-- One byte complete and valid (state before VL7 and VL8). -/
abbrev byteDone : State := st true .decodingBits [0x04] 9 false (some 60) (some 7080) (some 7110) true
/-- Five bits of a byte (state before VL9, VL10). -/
abbrev midByte : State := st true .decodingBits [0x05] 5 false (some 60) (some 6900) (some 7000) false
/-- The byte's eight data bits are in (state before VH10, VH11). -/
abbrev ninthNext : State := st true .decodingBits [0x04] 8 true (some 60) (some 7080) (some 7050) false
/-- A byte has nine bits and its boundary did not come (state before VH14). -/
abbrev tenthNext : State := st true .decodingBits [0x04] 9 false (some 60) (some 7200) (some 7110) false
/-- A byte awaits its calibration pulse (state before VH3). -/
abbrev awaiting : State := st true .awaitingByteCalibration [0x00] 0 false none (some 6000) (some 1000) false
/-- No frame, one rising edge seen (state before VL2, VL3). -/
abbrev idleHigh : State := st true .idle [] 0 false none none (some 1000) false
/-- Calibrated, no bit yet. -/
abbrev calibrated : State := st true .decodingBits [0x00] 0 false (some 60) (some 6000) (some 6060) false

/-! ### Decoding -/

/-- VE1, VE5: level 0b00 in bits 33:32, the tick below. -/
theorem test_decode_low :
    decode (.ev 0b0000000000000000000001011101110000#34) = .ok (.low 6000) ∧
    decode (.ev 0x000000000#34) = .ok (.low 0) := ⟨rfl, rfl⟩
/-- VE2, VE4. -/
theorem test_decode_high :
    decode (.ev 0b0100000000000000000001011110101100#34) = .ok (.high 6060) ∧
    decode (.ev 0x1FFFFFFFF#34) = .ok (.high 4294967295) := ⟨rfl, rfl⟩
/-- VE3. -/
theorem test_decode_timeout : decode (.ev 0b1000000000000000000010010100001000#34) = .ok (.timeout 9480) := rfl
/-- VE6, VE7: the reserved level code. -/
theorem test_decode_reserved :
    decode (.ev 0x300000000#34) = .error .reservedLevel ∧ decode (.ev 0x3FFFFFFFF#34) = .error .reservedLevel :=
  ⟨rfl, rfl⟩
/-- R63, R73: the codes of the two one-bit ports. -/
theorem test_decode_stop : decode (.cmd 0#1) = .ok .stop := rfl
theorem test_decode_start : decode (.cmd 1#1) = .ok .start := rfl
theorem test_decode_reset : decode (.rst 1#1) = .ok .reset ∧ decode (.rst 0#1) = .error .resetNotAsserted :=
  ⟨rfl, rfl⟩
/-- The words of R71: `0x0`, `0x1`, `0x2` and the tick as eight digits. -/
theorem test_encode_words :
    encode (.low 6000) = .ev 0x000001770#34 ∧ encode (.high 1000) = .ev 0x1000003E8#34 ∧
    encode (.timeout 9480) = .ev 0x200002508#34 := by decide
/-- The match words of spec/opcode_table.json; RESET's word is START's (log entry 4). -/
theorem test_table_words :
    decodeTableWord 40 0x000000000 = some (.low 0) ∧ decodeTableWord 40 0x100000000 = some (.high 0) ∧
    decodeTableWord 40 0x200000000 = some (.timeout 0) ∧ decodeTableWord 8 0 = some .stop ∧
    decodeTableWord 8 1 = some .start ∧ decodeTableWord 40 0x300000000 = none ∧ decodeTableWord 8 2 = none := by
  decide
/-- A table word placed at the port is what the next step runs. -/
theorem test_fetch_word :
    step (State.reset.withFetchWord 8 1) = .next { State.reset with
      dec := { Decoder.reset with started := true }, out := [.wdDisarm] } ∧
    step (idleHigh.withFetchWord 40 0x0000007D1) = .next { idleHigh with
      dec := ⟨true, .awaitingByteCalibration, [0x00], 0, false, none, some 2001, some 1000, false⟩
      out := [.wdDisarm] } := ⟨rfl, rfl⟩

/-! ### Well-formedness: one ill-formed term for each check -/

theorem smoke_params_default : Config.default.wellFormed = true := by decide
theorem smoke_params_byte_not_below_packet :
    Params.wellFormed { Config.default with byteStartTicks := 1000 } = false := by decide
theorem smoke_params_packet_too_large :
    Params.wellFormed { Config.default with packetStartTicks := 4294967296 } = false := by decide
theorem smoke_params_no_window : Params.wellFormed { Config.default with watchdogMs := 0 } = false := by decide
theorem smoke_word_reserved :
    PortInput.wellFormed (.ev 0x300000000#34) = false ∧ PortInput.wellFormed (.ev 0x2FFFFFFFF#34) = true := by decide
theorem smoke_reset_bit_low : PortInput.wellFormed (.rst 0#1) = false ∧ PortInput.wellFormed (.rst 1#1) = true := by
  decide

/-! ### One step -/

/-- VL5: a gap of 1001 flushes the frame as OK and begins another. -/
theorem test_low_packet_start : result (.low 9481) armed =
    some (⟨true, .awaitingByteCalibration, [0x00], 0, false, none, some 9481, some 8480, false⟩,
      [.wdDisarm, .frame ⟨[0x04, 0x00], .ok⟩]) := by decide
/-- VL6: a gap of exactly 1000 is no packet start; a third byte begins. -/
theorem test_low_byte_start : result (.low 9480) armed =
    some (⟨true, .awaitingByteCalibration, [0x04, 0x00, 0x00], 0, false, none, some 9480, some 8480, false⟩,
      [.wdDisarm]) := by decide
/-- VH18: only the last byte of the buffer changes. -/
theorem test_high_data_bit :
    result (.high 19720) (st true .decodingBits [0x07, 0x7F] 7 true (some 60) (some 19690) (some 19600) false) =
      some (⟨true, .decodingBits, [0x07, 0xFF], 8, false, some 60, some 19690, some 19720, false⟩, [.wdDisarm]) := by
  decide
/-- VH10: a valid ninth bit arms the watchdog. -/
theorem test_high_ninth_bit : result (.high 7110) ninthNext =
    some (⟨true, .decodingBits, [0x04], 9, false, some 60, some 7080, some 7110, true⟩, [.wdDisarm, .wdArm 1]) := by
  decide
/-- VT1: the tick registers survive, no watchdog command is sent. -/
theorem test_timeout : result (.timeout 9480) armed =
    some (⟨true, .idle, [], 0, false, none, some 8390, some 8480, false⟩, [.frame ⟨[0x04, 0x00], .ok⟩]) := by decide
/-- VT6: a stale TIMEOUT cuts a byte. -/
theorem test_timeout_mid_byte :
    result (.timeout 1) (st true .decodingBits [0x04, 0x01] 3 true (some 60) (some 7790) (some 7820) false) =
      some (⟨true, .idle, [], 0, false, none, some 7790, some 7820, false⟩, [.frame ⟨[0x04, 0x01], .ok⟩]) := by decide
/-- VC2: START drops the frame in progress. -/
theorem test_start : result .start armed =
    some (⟨true, .idle, [], 0, false, none, none, none, false⟩, [.wdDisarm]) := by decide
/-- VC3. -/
theorem test_stop : result .stop armed = some (Decoder.reset, [.wdDisarm]) := by decide
/-- VC8. -/
theorem test_reset : result .reset armed = some (Decoder.reset, [.wdDisarm]) := by decide
/-- R164: START on an instance without a driver fails to its caller. -/
theorem test_start_without_driver :
    result .start { State.reset with params := { Config.default with driverAvailable := false } } =
      some (Decoder.reset, [.driverUnavailable]) := by decide

/-! ### The value conversion -/

/-- VV3, the value whose two roundings differ from one: its exact value and its bits. -/
theorem test_convert_wide :
    convert .p11WideA 767 = 51050 / 2047 ∧
    binary64Bits (convertF64 .p11WideA 767) = 0x4038F05E0BC17830#64 := by decide +kernel
/-- VV17 and VV23. -/
theorem test_convert_narrow :
    binary64Bits (convertF64 .p14Narrow 1) = 0xC023FDCFF73FDCFF#64 ∧
    binary64Bits (convertF64 .p14Narrow 65535) = 0x4070E03480D20348#64 := by decide +kernel
/-- VA1 to VA5. -/
theorem test_accept :
    accept ⟨[0x04, 0x00], .ok⟩ = true ∧ accept ⟨[0x04], .ok⟩ = false ∧ accept ⟨[0x04, 0x00, 0x00], .ok⟩ = false ∧
    accept ⟨[0x04, 0x00], .parityError⟩ = false ∧ accept ⟨[0x04, 0x00], .bitCountError⟩ = false ∧
    rawOf ⟨[0x04, 0x00], .ok⟩ = some 1024 := by decide
/-- The parity bits of 95_test_vectors.md section 2. -/
theorem test_even_parity :
    evenParityBit 0x04 = true ∧ evenParityBit 0x12 = false ∧ evenParityBit 0xFF = false ∧ evenParityBit 0x80 = true := by
  decide
/-- The expansion of `BYTE(6000, 0x04)`: its length, its twelfth pair and its end tick. -/
theorem test_byte_trace :
    (byteTrace tv 6000 0x04).length = 20 ∧
    (byteTrace tv 6000 0x04).drop 18 = [.low 7080, .high 7110] ∧ byteEnd tv 6000 0x04 = 7110 := by decide

/-! ### Witnesses: the hypotheses of each statement are met together -/

/-- ResetAndConstruction: a set for each of its three clauses. -/
theorem witness_ResetAndConstruction :
    (Config.default.wellFormed = true ∧ Config.default.driverAvailable = true) ∧
    (Params.wellFormed { Config.default with driverAvailable := false } = true) ∧
    (Params.wellFormed { Config.default with byteStartTicks := 1000 } = false) := by decide

theorem witness_EncodeOfDecode : decode (.ev 0x2FFFFFFFF#34) = .ok (.timeout 4294967295) := rfl

/-- EventWordReadAsNumber: the largest level below 4 and the largest tick. -/
theorem witness_EventWordReadAsNumber : 3 < 4 ∧ (4294967295#32).toNat = 2 ^ 32 - 1 := by decide

/-- StepRunsDecodedInput and StepWaitsWithoutOperation: two inputs waiting, an `rst` bit at 0, none waiting. -/
theorem witness_step :
    let s : State := { idleHigh with inputs := [.ev 0x0000007D1#34, .cmd 0#1] }
    let r : State := { idleHigh with inputs := [.rst 0#1] }
    s.params.wellFormed = true ∧ s.inputs = .ev 0x0000007D1#34 :: [.cmd 0#1] ∧
      decode (.ev 0x0000007D1#34) = .ok (.low 2001) ∧ r.inputs = [.rst 0#1] ∧ idleHigh.inputs = [] :=
  ⟨rfl, rfl, rfl, rfl, rfl⟩

/-- StepRefusals: the smallest reserved word; a parameter set for each of the three clauses. -/
theorem witness_StepRefusals :
    (0x300000000#34).toNat / 2 ^ 32 = 3 ∧ (0x2FFFFFFFF#34).toNat / 2 ^ 32 ≠ 3 ∧
    step { State.reset with inputs := [.ev 0x300000000#34] } = .refused .reservedLevelCode ∧
    step { State.reset with params := { Config.default with byteStartTicks := 1000 } } =
      .refused .illFormedParameters ∧
    step { State.reset with params := { Config.default with packetStartTicks := 4294967296 } } =
      .refused .illFormedParameters ∧
    step { State.reset with params := { Config.default with watchdogMs := 0 } } = .refused .illFormedParameters :=
  ⟨rfl, by decide, rfl, rfl, rfl, rfl⟩

/-- StepNeverFaultsNorSticks: a waiting word that is the last below the reserved ones. -/
theorem witness_StepNeverFaultsNorSticks :
    let s : State := { State.reset with inputs := [.ev 0x2FFFFFFFF#34] }
    s.params.wellFormed = true ∧ ∀ w rest, s.inputs = .ev w :: rest → w.toNat / 2 ^ 32 ≠ 3 := by
  refine ⟨rfl, fun w rest h => ?_⟩
  cases h; decide

theorem witness_RunIsFoldOfTrace :
    State.reset.params.wellFormed = true ∧
    ∃ t, execTrace [.start, .high 1000, .low 6000] State.reset = .next t ∧ t.dec.bytes = [0x00] := ⟨rfl, _, rfl, rfl⟩

/-- LowEventResult: each clause at the boundary of its range, `hw` = 1001, 1000, 151, 150 ticks. -/
theorem witness_LowEventResult :
    (∃ s : State, s.dec.started = true ∧ s.dec.lastHigh = none) ∧
    (armed.dec.started = true ∧ armed.dec.lastHigh = some 8480 ∧ (tickDiff 8480 9481).toNat = 1001) ∧
    (armed.dec.bitCount = 9 ∧ armed.dec.phase ≠ .idle ∧ (tickDiff 8480 9480).toNat = 1000) ∧
    (byteDone.dec.lastHigh = some 7110 ∧ byteDone.dec.bitCount = 9 ∧ (tickDiff 7110 7261).toNat = 151) ∧
    (midByte.dec.started = true ∧ midByte.dec.lastHigh = some 7000 ∧ midByte.dec.bitCount ≠ 9 ∧
      midByte.dec.phase ≠ .idle ∧ (tickDiff 7000 7151).toNat = 151 ∧ (tickDiff 7000 8000).toNat = 1000) ∧
    ((tickDiff 7110 7260).toNat = 150 ∧ idleHigh.dec.phase = .idle ∧ (tickDiff 1000 2000).toNat = 1000) :=
  ⟨⟨st true .idle [] 0 false none none none false, rfl, rfl⟩, by decide, by decide, by decide, by decide, by decide⟩

/-- HighEventResult: each clause; a bit one tick short of the calibration width and one at it; the eighth and the ninth
bit; a tenth. -/
theorem witness_HighEventResult :
    (idleHigh.dec.started = true ∧ idleHigh.dec.lastLow = none ∧ idleHigh.dec.phase = .idle) ∧
    (awaiting.dec.lastLow = some 6000 ∧ awaiting.dec.phase = .awaitingByteCalibration) ∧
    (calibrated.dec.lastLow = some 6000 ∧ calibrated.dec.phase = .decodingBits ∧ calibrated.dec.calib = some 60 ∧
      calibrated.dec.bytes = [] ++ [0x00#8] ∧ calibrated.dec.bitCount < 8 ∧
      (tickDiff 6000 6059).toNat < (60#32).toNat ∧ (60#32).toNat ≤ (tickDiff 6000 6060).toNat) ∧
    (ninthNext.dec.lastLow = some 7080 ∧ ninthNext.dec.phase = .decodingBits ∧ ninthNext.dec.calib = some 60 ∧
      ninthNext.dec.bitCount = 8 ∧ ninthNext.dec.parity = decide ((tickDiff 7080 7110).toNat < (60#32).toNat) ∧
      ninthNext.dec.parity ≠ decide ((tickDiff 7080 7140).toNat < (60#32).toNat)) ∧
    (tenthNext.dec.started = true ∧ tenthNext.dec.lastLow = some 7200 ∧ tenthNext.dec.phase = .decodingBits ∧
      9 ≤ tenthNext.dec.bitCount) := by decide

/-- TimeoutResult, StartResult, EventsWhileStoppedIgnored. -/
theorem witness_handlers :
    armed.dec.started = true ∧ State.reset.dec.started = false ∧ State.reset.params.driverAvailable = true ∧
    ({ Config.default with driverAvailable := false } : Params).driverAvailable = false := by decide

/-- RegistersWrittenAsTabled, AtMostOneFramePerOperation, WatchdogCommandsPerOperation, OnlyTickDifferencesMatter and
OutputsDoNotFeedBack suppose only that an operation answers a next state; here with each clause's operation. -/
theorem witness_next :
    (∃ t, exec (.low 9481) armed = .next t ∧ emitted armed t = [⟨[0x04, 0x00], .ok⟩]) ∧
    (∃ t, exec (.high 7110) ninthNext = .next t ∧ t.dec.wdArmed = true) ∧
    (∃ t, exec (.timeout 9480) armed = .next t ∧ t.dec.phase = .idle) :=
  ⟨⟨_, rfl, rfl⟩, ⟨_, rfl, rfl⟩, ⟨_, rfl, rfl⟩⟩

/-- BufferAccesses: each of its five cases occurs. -/
theorem witness_BufferAccesses :
    (∃ t, exec (.low 7260) byteDone = .next t ∧ t.dec.bytes = byteDone.dec.bytes) ∧
    (∃ t, exec (.low 7261) byteDone = .next t ∧ t.dec.bytes = byteDone.dec.bytes ++ [0x00#8]) ∧
    (∃ t, exec (.low 9481) armed = .next t ∧ t.dec.bytes = [0x00#8]) ∧
    (∃ t, exec (.high 6059) calibrated = .next t ∧ t.dec.bytes = [0x00#8 * 2#8 + 1#8]) ∧
    (∃ t, exec (.low 7200) midByte = .next t ∧ t.dec.bytes = [] ∧ emitted midByte t ≠ []) :=
  ⟨⟨_, rfl, rfl⟩, ⟨_, rfl, rfl⟩, ⟨_, rfl, rfl⟩, ⟨_, rfl, rfl⟩, ⟨_, rfl, rfl, by decide⟩⟩

/-- The states of these witnesses meet the invariant. -/
theorem witness_invariant :
    armed.Inv ∧ byteDone.Inv ∧ midByte.Inv ∧ ninthNext.Inv ∧ tenthNext.Inv ∧ awaiting.Inv ∧ idleHigh.Inv ∧
    calibrated.Inv :=
  ⟨by decide, by decide, by decide, by decide, by decide, by decide, by decide, by decide⟩

/-- WatchdogArmedAtValidByteOnly and ParityErrorCause: a short ninth pulse arms, a long one is a ParityError. -/
theorem witness_ninth_bit :
    ninthNext.Inv ∧
    (∃ t, exec (.high 7110) ninthNext = .next t ∧ Output.wdArm 1 ∈ sentBetween ninthNext t) ∧
    (∃ t, exec (.high 7170) ninthNext = .next t ∧ ⟨[0x04], .parityError⟩ ∈ emitted ninthNext t) :=
  ⟨by decide, ⟨_, rfl, by decide⟩, ⟨_, rfl, by decide⟩⟩

/-- BitCountErrorCauses: the LOW cause at `hw` = 151 and 1000, and the tenth bit. -/
theorem witness_BitCountErrorCauses :
    midByte.Inv ∧ tenthNext.Inv ∧
    (∃ t, exec (.low 7151) midByte = .next t ∧ ⟨[0x05], .bitCountError⟩ ∈ emitted midByte t) ∧
    (∃ t, exec (.low 8000) midByte = .next t ∧ ⟨[0x05], .bitCountError⟩ ∈ emitted midByte t) ∧
    (∃ t, exec (.high 7230) tenthNext = .next t ∧ ⟨[0x04], .bitCountError⟩ ∈ emitted tenthNext t) :=
  ⟨by decide, by decide, ⟨_, rfl, by decide⟩, ⟨_, rfl, by decide⟩, ⟨_, rfl, by decide⟩⟩

/-- OkFrameCauses and FlushAsTrapEntry: a packet-start gap of 1001 ticks, a TIMEOUT, an error. -/
theorem witness_OkFrameCauses :
    midByte.Inv ∧
    (∃ t, exec (.low 8001) midByte = .next t ∧ ⟨[0x05], .ok⟩ ∈ emitted midByte t) ∧
    (∃ t, exec (.timeout 0) midByte = .next t ∧ ⟨[0x05], .ok⟩ ∈ emitted midByte t) ∧
    (∃ t, exec (.high 7170) ninthNext = .next t ∧ ⟨[0x04], .parityError⟩ ∈ emitted ninthNext t) :=
  ⟨by decide, ⟨_, rfl, by decide⟩, ⟨_, rfl, by decide⟩, ⟨_, rfl, by decide⟩⟩

theorem witness_ByteClosedAtNineBitsOnly :
    byteDone.Inv ∧ byteDone.dec.bytes ≠ [] ∧
    ∃ t, exec (.low 7261) byteDone = .next t ∧ t.dec.bytes.length = byteDone.dec.bytes.length + 1 :=
  ⟨by decide, by decide, _, rfl, rfl⟩

theorem witness_CommandsEmitNoFrame :
    Instr.isEvent .stop = false ∧ ∃ t, exec .stop armed = .next t ∧ armed.dec.bytes ≠ [] := ⟨rfl, _, rfl, by decide⟩

theorem witness_IdempotentOperations :
    (∃ t u, exec (.timeout 1) armed = .next t ∧ exec (.timeout 1) t = .next u) ∧
    (∃ t u, exec .start armed = .next t ∧ exec .start t = .next u) ∧
    (∃ t u, exec .stop armed = .next t ∧ exec .stop t = .next u) ∧
    (∃ t u, exec .reset armed = .next t ∧ exec .reset t = .next u) :=
  ⟨⟨_, _, rfl, rfl⟩, ⟨_, _, rfl, rfl⟩, ⟨_, _, rfl, rfl⟩, ⟨_, _, rfl, rfl⟩⟩

theorem witness_InvariantAtReset : ∃ s, construct Config.default = .next s := ⟨_, rfl⟩

/-- InvariantKeptByStep: a step from a state with a frame in progress. -/
theorem witness_InvariantKeptByStep :
    State.Inv { ninthNext with inputs := [.ev 0x100001BC6#34] } ∧
    ∃ t, step { ninthNext with inputs := [.ev 0x100001BC6#34] } = .next t ∧ t.dec.wdArmed = true :=
  ⟨by decide, _, rfl, rfl⟩

/-- DecodingStartsAtPacketStartOnly: a trace after which a frame is in progress. -/
theorem witness_DecodingStartsAtPacketStartOnly :
    idleHigh.Inv ∧ idleHigh.dec.phase = .idle ∧
    ∃ t, execTrace [.low 1500, .high 1600, .low 2601] idleHigh = .next t ∧ t.dec.phase ≠ .idle :=
  ⟨by decide, rfl, _, rfl, by decide⟩

theorem witness_StopSilencesEvents :
    ∀ i ∈ [Instr.low 1, .high 2, .timeout 3], i.isEvent = true := by decide

theorem witness_EventRacingStop :
    Instr.isEvent (.low 9481) = true ∧
    ∃ t u v, exec (.low 9481) armed = .next t ∧ execTrace [.low 9481, .stop] armed = .next u ∧
      execTrace [.stop, .low 9481] armed = .next v ∧ emitted armed u = [⟨[0x04, 0x00], .ok⟩] :=
  ⟨rfl, _, _, _, rfl, rfl, rfl, rfl⟩

theorem witness_ConformingTimeoutFlushesCompleteByte :
    armed.Inv ∧ armed.params.envStaleTimeout = false ∧ envMay armed (.timeout 9480) = true :=
  ⟨by decide, rfl, rfl⟩

/-- WatchdogFiresBeforePacketStart: the defaults meet its first hypothesis; an edge 999 ticks after the arming. -/
theorem witness_WatchdogFiresBeforePacketStart :
    armed.Inv ∧ 1000 * armed.params.watchdogMs ≤ armed.params.packetStartTicks + 1 ∧ armed.dec.wdArmed = true ∧
    armed.dec.lastHigh = some 8480 ∧ wellTimed [.low 9479] armed = true ∧ wellTimed [.low 9480] armed = false :=
  ⟨by decide, by decide, rfl, rfl, by decide, by decide⟩

/-- BitsReceivedMsbFirst: the timing TV, the first bit's high period 60 and, at its bound, 150. -/
theorem witness_BitsReceivedMsbFirst :
    calibrated.params.wellFormed = true ∧ tv.fits calibrated.params = true ∧ calibrated.dec.started = true ∧
    calibrated.dec.phase = .decodingBits ∧ calibrated.dec.bytes = [] ++ [0x00#8] ∧ calibrated.dec.bitCount = 0 ∧
    calibrated.dec.calib = some (BitVec.ofNat 32 tv.c) ∧ calibrated.dec.lastHigh = some 6060 ∧
    (tickDiff 6060 6120).toNat ≤ calibrated.params.byteStartTicks ∧
    (tickDiff 6060 6210).toNat = calibrated.params.byteStartTicks := by decide

/-- PacketReceivedAsSent and WrongParityRejected: the packet of program P1, `g` at both ends of its range. -/
theorem witness_PacketReceivedAsSent :
    idleHigh.Inv ∧ idleHigh.params.wellFormed = true ∧ tv.fits idleHigh.params = true ∧
    idleHigh.dec.started = true ∧ idleHigh.dec.phase = .idle ∧ idleHigh.dec.lastHigh = some 1000 ∧
    idleHigh.params.packetStartTicks < (tickDiff 1000 6000).toNat ∧
    idleHigh.params.packetStartTicks < (tickDiff 1000 2001).toNat ∧
    (idleHigh.params.byteStartTicks < 151 ∧ 1000 ≤ idleHigh.params.packetStartTicks) ∧
    ([0x04, 0x00] : List Byte) ≠ [] ∧ true ≠ evenParityBit 0x12 :=
  ⟨by decide, by decide⟩

theorem witness_OkFrameMayEndIncomplete :
    let s := st true .decodingBits [0x04, 0x01] 3 true (some 60) (some 7790) (some 7820) false
    s.dec.started = true ∧ s.dec.bytes = [0x04, 0x01] ∧ s.dec.bitCount < 9 := by decide

/-- Two units on two lines: one in the middle of its ninth bit, one just reset, each with operations waiting. -/
abbrev twoUnits : System :=
  [{ ninthNext with inputs := [Instr.high 7110, .timeout 8110].map encode },
   { State.reset with params := { Config.default with pin := 1 }, inputs := [Instr.start, .high 1000].map encode }]

/-- InstancesIndependent: two units, a schedule that interleaves their steps and steps the second once too often. -/
theorem witness_InstancesIndependent :
    System.pinsDistinct twoUnits = true ∧
    [[Instr.high 7110, .timeout 8110], [Instr.start, .high 1000]].length = twoUnits.length ∧
    (∀ k ∈ [1, 0, 1, 0, 1], k < twoUnits.length) ∧
    (∀ (k : Nat) (s : State) (is : List Instr), twoUnits[k]? = some s →
      [[Instr.high 7110, .timeout 8110], [Instr.start, .high 1000]][k]? = some is →
        s.params.wellFormed = true ∧ s.inputs = is.map encode) ∧
    ((System.run [1, 0, 1, 0, 1] twoUnits).map fun sys => sys.map fun s => framesOf s.out) =
      some [[⟨[0x04], .ok⟩], []] := by
  refine ⟨by decide, rfl, by decide, fun k s is hs hi => ?_, by decide⟩
  match k with
  | 0 => cases hs; cases hi; exact ⟨rfl, rfl⟩
  | 1 => cases hs; cases hi; exact ⟨rfl, rfl⟩
  | k + 2 => simp at hs

/-- ConversionMonotone and BinaryConversionError: the last two raw values of each range. -/
theorem witness_conversion :
    (2046 < 2047 ∧ 2047 ≤ 2 ^ (profileEntry .p11WideA).bitWidth - 1) ∧
    (16382 < 16383 ∧ 16383 ≤ 2 ^ (profileEntry .p14Narrow).bitWidth - 1) := by decide

/-- A byte 0x04 behind a gap: its widths differ from pulse to pulse, one high period is at its bound of 150 ticks, a 1 one
tick short of the calibration width and a 0 at it. -/
abbrev sent04 (gap : Nat) : SentByte :=
  ⟨0x04, ⟨gap, 60⟩,
    [⟨60, 90⟩, ⟨150, 60⟩, ⟨1, 61⟩, ⟨30, 90⟩, ⟨40, 200⟩, ⟨30, 59⟩, ⟨90, 90⟩, ⟨30, 100⟩, ⟨30, 0⟩]⟩

/-- A byte 0x00 behind a gap, with another calibration width. -/
abbrev sent00 (gap : Nat) : SentByte := ⟨0x00, ⟨gap, 10⟩, List.replicate 9 ⟨5, 20⟩⟩

/-- PacketOfAnyWidthsReceived: the gaps at both ends of their ranges, a next packet's gap of 1001 ticks. -/
theorem witness_PacketOfAnyWidthsReceived :
    (idleHigh.Inv ∧ idleHigh.params.wellFormed = true ∧ idleHigh.dec.started = true ∧ idleHigh.dec.phase = .idle ∧
      idleHigh.dec.lastHigh = some 1000) ∧
    ((sent04 1001).begins idleHigh.params = true ∧ (sent04 4294967295).begins idleHigh.params = true ∧
      (sent00 151).follows idleHigh.params = true ∧ (sent00 1000).follows idleHigh.params = true) ∧
    ((sent04 1001).fits idleHigh.params = true ∧ (sent00 151).fits idleHigh.params = true) ∧
    idleHigh.params.packetStartTicks < (tickDiff 6000 7001).toNat :=
  ⟨⟨by decide, rfl, rfl, rfl, rfl⟩, by decide, by decide, by decide⟩

/-- The end ticks of R72: `BYTE(10000, 0x12, 1)` of program P2, `BYTE(858, 0x5A)[5 bits]` of program P3, no bit kept. -/
theorem test_end_ticks :
    byteEndWith tv 10000 true = 11110 ∧ byteBitsEnd tv 858 0x5A 5 = 1488 ∧ byteBitsEnd tv 6000 0xA5 0 = 6060 ∧
    (byteTraceBits tv 858 0x5A 5).length = 12 := by decide
/-- `PACKET(6000, [0x04, 0x00])` of program P1: 40 events, the second byte 200 ticks after the first. -/
theorem test_packet_default_gap :
    (packetTrace tv 6000 [0x04, 0x00]).length = 40 ∧ (packetTrace tv 6000 [0x04, 0x00])[20]? = some (.low 7310) ∧
    packetEnd tv 6000 [0x04, 0x00] = 8480 := by decide

/-- TruncatedByteRejected: no bit and eight bits, `g` at both ends of its range. -/
theorem witness_TruncatedByteRejected :
    (idleHigh.Inv ∧ idleHigh.params.wellFormed = true ∧ tv.fits idleHigh.params = true ∧
      idleHigh.dec.started = true ∧ idleHigh.dec.phase = .idle ∧ idleHigh.dec.lastHigh = some 1000) ∧
    idleHigh.params.packetStartTicks < (tickDiff 1000 2001).toNat ∧ 0 ≤ 8 ∧ 8 ≤ 8 ∧
    idleHigh.params.byteStartTicks < 151 ∧ 1000 ≤ idleHigh.params.packetStartTicks :=
  ⟨⟨by decide, rfl, by decide, rfl, rfl, rfl⟩, by decide⟩

end Sys2Proof.Tests
end

section
/-! SUPPORT. The TIMEOUT event and the watchdog (43_timeout_and_watchdog.md): where the watchdog is armed, what an armed
watchdog says of the state, and what a well-timed environment adds. -/

namespace Sys2Proof.Machine

/-! ### The events while started, and the watchdog flag after each outcome -/

section
variable {s : State} {tick : Tick}

theorem effect_low_of_started (hs : s.dec.started = true) : effect (.low tick) s = onLow tick s := by
  simp [effect, whenStarted, hs]

theorem effect_high_of_started (hs : s.dec.started = true) : effect (.high tick) s = onHigh tick s := by
  simp [effect, whenStarted, hs]

theorem effect_timeout_of_started (hs : s.dec.started = true) : effect (.timeout tick) s = onTimeout s := by
  simp [effect, whenStarted, hs]

end

section
variable (s : State) (tick lw : Tick) (st : Status) (bit : Bool)

@[simp] theorem lowTickOnly_wdArmed : (lowTickOnly tick s).dec.wdArmed = false := rfl
@[simp] theorem lowPacketStart_wdArmed : (lowPacketStart tick s).dec.wdArmed = false := rfl
@[simp] theorem lowByteStart_wdArmed : (lowByteStart tick s).dec.wdArmed = false := rfl
@[simp] theorem lowBitCountError_wdArmed : (lowBitCountError tick s).dec.wdArmed = false := rfl
@[simp] theorem highTickOnly_wdArmed : (highTickOnly tick s).dec.wdArmed = false := rfl
@[simp] theorem highCalibrate_wdArmed : (highCalibrate lw tick s).dec.wdArmed = false := rfl
@[simp] theorem highDataBit_wdArmed : (highDataBit bit tick s).dec.wdArmed = false := rfl
@[simp] theorem highValidByte_wdArmed : (highValidByte tick s).dec.wdArmed = true := rfl
@[simp] theorem highError_wdArmed : (highError st tick s).dec.wdArmed = false := rfl
@[simp] theorem onTimeout_wdArmed : (onTimeout s).dec.wdArmed = false := rfl

end

/-! ### Where the watchdog is armed (R127) -/

/-- An operation sends an arm command. -/
def SendsArm (i : Instr) (s : State) : Prop := ∃ ms, Output.wdArm ms ∈ sentBetween s (effect i s)

/-- A HIGH at `tick` ends the ninth low pulse of a byte, and its bit makes the running parity even. -/
def EvenNinthBit (tick : Tick) (s : State) : Prop :=
  ∃ l, s.dec.lastLow = some l ∧ s.dec.phase = .decodingBits ∧ s.dec.bitCount = 8 ∧
    (s.dec.parity ^^ classifyBit s (tickDiff l tick)) = false

theorem onHigh_of_evenNinthBit {s : State} {tick : Tick} (h : EvenNinthBit tick s) :
    onHigh tick s = highValidByte tick s := by
  obtain ⟨l, hl, hp, hc, hx⟩ := h
  simp [onHigh_ninth_bit hl hp hc, hx]

theorem wdArm_not_mem_onLow (s : State) (tick : Tick) (ms : Nat) : Output.wdArm ms ∉ sentBetween s (onLow tick s) := by
  rcases onLow_cases s tick with ⟨h, -⟩ | ⟨-, -, ⟨-, h⟩ | ⟨-, -, -, ⟨-, h⟩ | ⟨-, h⟩⟩⟩ <;> simp [h]

@[simp] theorem onLow_wdArmed (s : State) (tick : Tick) : (onLow tick s).dec.wdArmed = false := by
  rcases onLow_cases s tick with ⟨h, -⟩ | ⟨-, -, ⟨-, h⟩ | ⟨-, -, -, ⟨-, h⟩ | ⟨-, h⟩⟩⟩ <;> simp [h]

/-- Every HIGH event but a ninth bit of even parity sends no arm command and leaves the watchdog disarmed. -/
theorem onHigh_arms_or_not (s : State) (tick : Tick) :
    EvenNinthBit tick s ∨
    ((∀ ms, Output.wdArm ms ∉ sentBetween s (onHigh tick s)) ∧ (onHigh tick s).dec.wdArmed = false) := by
  rcases onHigh_cases s tick with
    ⟨-, h⟩ | ⟨l, hl, ⟨-, h⟩ | ⟨hp, ⟨-, h⟩ | ⟨-, -, h⟩ | ⟨hc, hx, -⟩ | ⟨-, h⟩⟩⟩
  case inr.inr.inr.inr.inl => exact .inl ⟨l, hl, hp, hc, hx⟩
  all_goals exact .inr (by simp [h])

/-- The one place that arms. -/
theorem sendsArm_iff (i : Instr) (s : State) :
    SendsArm i s ↔ ∃ tick, i = .high tick ∧ s.dec.started = true ∧ EvenNinthBit tick s := by
  constructor
  · rintro ⟨ms, hms⟩
    rcases effect_cases i s with
      ⟨-, -, he⟩ | ⟨-, tick, -, he⟩ | ⟨hs, tick, hi, he⟩ | ⟨-, tick, -, he⟩ | ⟨-, ⟨b, -, he⟩ | he⟩ <;> rw [he] at hms
    · simp at hms
    · exact absurd hms (wdArm_not_mem_onLow s tick ms)
    · rcases onHigh_arms_or_not s tick with hn | ⟨hno, -⟩
      · exact ⟨tick, hi, hs, hn⟩
      · exact absurd hms (hno ms)
    · simp at hms
    · simp at hms
    · simp at hms
  · rintro ⟨tick, rfl, hs, hn⟩
    exact ⟨s.params.watchdogMs, by simp [effect_high_of_started hs, onHigh_of_evenNinthBit hn]⟩

theorem wdArmed_of_sendsArm {i : Instr} {s : State} (h : SendsArm i s) : (effect i s).dec.wdArmed = true := by
  obtain ⟨tick, rfl, hs, hn⟩ := (sendsArm_iff i s).mp h
  simp [effect_high_of_started hs, onHigh_of_evenNinthBit hn]

/-- An event handled while started leaves the watchdog disarmed unless it arms it. -/
theorem wdArmed_eq_false_of_not_sendsArm {i : Instr} {s : State} (hs : s.dec.started = true)
    (hi : i.isEvent = true) (h : ¬ SendsArm i s) : (effect i s).dec.wdArmed = false := by
  cases i with
  | low tick => simp [effect_low_of_started hs]
  | timeout tick => simp [effect_timeout_of_started hs]
  | high tick =>
    rcases onHigh_arms_or_not s tick with hn | ⟨-, hw⟩
    · exact absurd ((sendsArm_iff _ s).mpr ⟨tick, rfl, hs, hn⟩) h
    · rw [effect_high_of_started hs, hw]
  | stop => cases hi
  | start => cases hi
  | reset => cases hi

/-! ### What the invariant says of the ninth bit and of an armed watchdog -/

section
variable {s : State}

theorem classifyBit_of_calib {c : Tick} (lw : Tick) (hc : s.dec.calib = some c) :
    classifyBit s lw = decide (lw.toNat < c.toNat) := by
  simp [classifyBit, calibWidth, hc]

theorem State.Inv.calib_of_decodingBits (hs : s.Inv) (hp : s.dec.phase = .decodingBits) :
    ∃ c, s.dec.calib = some c := by
  obtain ⟨⟨-, -, -, hdec, -⟩, -⟩ := hs
  exact Option.isSome_iff_exists.mp (hdec hp).1

/-- The running parity is that of the eight bits received (R24 item 6), so a bit added to it gives the parity of nine. -/
theorem State.Inv.parityOf_nine_bits (hs : s.Inv) (hp : s.dec.phase = .decodingBits) (hc : s.dec.bitCount = 8)
    (bit : Bool) : parityOf (dataBits s.dec.activeByte ++ [bit]) = (s.dec.parity ^^ bit) := by
  obtain ⟨⟨-, -, -, -, -, hpart, -⟩, -⟩ := hs
  obtain ⟨-, hpar⟩ := hpart hp (by omega)
  rw [parityOf_append, hpar]

theorem State.Inv.evenNinthBit_iff (hs : s.Inv) (tick : Tick) :
    EvenNinthBit tick s ↔
      ∃ l c, s.dec.lastLow = some l ∧ s.dec.calib = some c ∧ s.dec.phase = .decodingBits ∧ s.dec.bitCount = 8 ∧
        parityOf (dataBits s.dec.activeByte ++ [decide ((tickDiff l tick).toNat < c.toNat)]) = false := by
  constructor
  · rintro ⟨l, hl, hp, hc, hx⟩
    obtain ⟨c, hcal⟩ := hs.calib_of_decodingBits hp
    exact ⟨l, c, hl, hcal, hp, hc, by rw [hs.parityOf_nine_bits hp hc, ← classifyBit_of_calib _ hcal, hx]⟩
  · rintro ⟨l, c, hl, hcal, hp, hc, hpar⟩
    exact ⟨l, hl, hp, hc, by rw [classifyBit_of_calib _ hcal, ← hs.parityOf_nine_bits hp hc, hpar]⟩

theorem State.Inv.bytes_ne_nil (hs : s.Inv) (hp : s.dec.phase ≠ .idle) : s.dec.bytes ≠ [] := by
  obtain ⟨⟨hidle, -⟩, -⟩ := hs
  exact mt hidle.mpr hp

theorem State.Inv.started_of_wdArmed (hs : s.Inv) (hw : s.dec.wdArmed = true) : s.dec.started = true := by
  obtain ⟨⟨-, -, -, -, -, -, -, -, hstop⟩, -⟩ := hs
  by_contra hns
  obtain ⟨-, -, -, hoff⟩ := hstop (by simpa using hns)
  simp [hw] at hoff

/-- The watchdog is armed only behind a complete byte of even parity (R24 items 5 and 8). -/
theorem State.Inv.complete_byte_of_wdArmed (hs : s.Inv) (hw : s.dec.wdArmed = true) :
    s.dec.phase = .decodingBits ∧ s.dec.bitCount = 9 ∧ s.dec.parity = false := by
  obtain ⟨⟨-, -, -, -, heven, -, -, harm, -⟩, -⟩ := hs
  obtain ⟨hp, hc⟩ := harm hw
  exact ⟨hp, hc, heven hp hc⟩

end

/-! ### TIMEOUT (R125), and the environment's rights and duties (R128, R129, R131) -/

theorem wdArmed_of_envMay_timeout {s : State} {tick : Tick} (hstale : s.params.envStaleTimeout = false)
    (h : envMay s (.timeout tick) = true) : s.dec.wdArmed = true := by
  simp only [envMay, hstale, Bool.or_false, Bool.and_eq_true] at h
  exact h.2

theorem complete_onTimeout (s : State) : complete (onTimeout s) = true := by
  simp [complete, quiescent, onTimeout_eq]

/-- A LOW that a well-timed environment delivers while the watchdog is armed comes within the window (log entry 14). -/
theorem tickDiff_lt_window_of_wellTimed_low {s : State} {tick h : Tick} {is : List Instr} (hw : s.dec.wdArmed = true)
    (hh : s.dec.lastHigh = some h) (hwt : wellTimed (.low tick :: is) s = true) :
    (tickDiff h tick).toNat < 1000 * s.params.watchdogMs := by
  simp only [wellTimed, Bool.and_eq_true] at hwt
  simpa [wellTimedNext, nextEdge, hw, hh] using hwt.1

/-- A LOW after nine bits and no packet-start gap leaves the buffer or begins the next byte behind it (R102, R103). -/
theorem onLow_after_nine_bits {s : State} {tick h : Tick} (hh : s.dec.lastHigh = some h)
    (hps : (tickDiff h tick).toNat ≤ s.params.packetStartTicks) (hc : s.dec.bitCount = 9) :
    onLow tick s = lowTickOnly tick s ∨ onLow tick s = lowByteStart tick s := by
  rcases onLow_cases s tick with ⟨ht, -⟩ | ⟨h', hh', ⟨hgap, -⟩ | ⟨-, -, -, ⟨-, hb⟩ | ⟨hne, -⟩⟩⟩
  · exact .inl ht
  · obtain rfl : h = h' := Option.some.inj (hh.symm.trans hh')
    omega
  · exact .inr hb
  · exact absurd hc hne

/-! ### The statements -/

/-- Settles O15: the handler's own equation, in a started state. -/
theorem timeoutResult : Obligations.TimeoutResult := by
  intro s tick hs
  rw [exec_eq_effect, effect_timeout_of_started hs, onTimeout_eq]
  rfl

/-- Settles O23: an arm command is sent exactly at a ninth bit that makes the running parity even, and the invariant
reads that parity as the parity of the nine bits. -/
theorem watchdogArmedAtValidByteOnly : Obligations.WatchdogArmedAtValidByteOnly := by
  intro i s t hinv hexec
  obtain rfl := exec_next_iff.mp hexec
  refine ⟨(sendsArm_iff i s).trans ?_, wdArmed_of_sendsArm, wdArmed_eq_false_of_not_sendsArm⟩
  simp only [hinv.evenNinthBit_iff]
  constructor
  · rintro ⟨tick, hi, hs, l, c, hl, hcal, hbyte⟩
    exact ⟨tick, l, c, hi, hs, hl, hcal, hbyte⟩
  · rintro ⟨tick, l, c, hi, hs, hl, hcal, hbyte⟩
    exact ⟨tick, hi, hs, l, c, hl, hcal, hbyte⟩

/-- Settles O38: without stale TIMEOUTs the watchdog is armed, so the invariant gives a complete byte to flush. -/
theorem conformingTimeoutFlushesCompleteByte : Obligations.ConformingTimeoutFlushesCompleteByte := by
  intro s tick hinv hstale henv
  have hw := wdArmed_of_envMay_timeout hstale henv
  obtain ⟨hp, hc, hpar⟩ := hinv.complete_byte_of_wdArmed hw
  have hbytes : s.dec.bytes ≠ [] := hinv.bytes_ne_nil (by simp [hp])
  refine ⟨hp, hc, hpar, onTimeout s, ?_, ?_, complete_onTimeout s⟩
  · rw [exec_eq_effect, effect_timeout_of_started (hinv.started_of_wdArmed hw)]
  · simp [emitted, hbytes]

/-- Settles O39: the LOW comes within the window, which ends at most one tick beyond the packet-start threshold; and it
finds a byte of nine bits, so it is no error either. -/
theorem watchdogFiresBeforePacketStart : Obligations.WatchdogFiresBeforePacketStart := by
  intro s tick h is hwin hw hh hwt
  have hin := tickDiff_lt_window_of_wellTimed_low hw hh hwt
  have hps : (tickDiff h tick).toNat ≤ s.params.packetStartTicks := by omega
  refine ⟨hps, fun hinv => ⟨onLow tick s, ?_, ?_⟩⟩
  · rw [exec_eq_effect, effect_low_of_started (hinv.started_of_wdArmed hw)]
  · obtain ⟨hp, hc, -⟩ := hinv.complete_byte_of_wdArmed hw
    have hbytes : s.dec.bytes ≠ [] := hinv.bytes_ne_nil (by simp [hp])
    rcases onLow_after_nine_bits hh hps hc with ht | hb
    · rw [ht]
      exact ⟨by simp [emitted], hbytes, .inl rfl⟩
    · rw [hb]
      exact ⟨by simp [emitted], hbytes, .inr rfl⟩

end Sys2Proof.Machine
end

section
/-! SUPPORT. The value conversion (45_value_conversion.md sections 3 and 4): the binary64 numbers among the integers, how far
the rounded conversion is from the exact one, and how far apart the exact values of two raw values are. -/

namespace Sys2Proof.Machine

/-! ### Rounding: exact on small integers, near for the rest -/

@[simp] theorem roundBinary64_zero : roundBinary64 0 = 0 := rfl

theorem roundNearestEven_intCast (n : ℤ) : roundNearestEven (n : ℚ) = n := by
  simp [roundNearestEven, Rat.floor_intCast]

/-- Integers below `2^53` are binary64 numbers (R151: "all are small integers"): the last of the 53 places of such a
number lies at or behind the binary point. -/
theorem roundBinary64_intCast {n : ℤ} (hn : |n| < 2 ^ 53) : roundBinary64 (n : ℚ) = n := by
  by_cases h0 : (n : ℚ) = 0
  · rw [h0, roundBinary64_zero]
  · obtain ⟨hlow, -⟩ := binaryExponent_spec h0
    have hulp := pow2_pos (binaryExponent n - 52)
    have hexp : binaryExponent (n : ℚ) < 53 := by
      have hlt : (2 : ℚ) ^ binaryExponent (n : ℚ) < (2 : ℚ) ^ (53 : ℤ) := by
        rw [← pow2_eq_zpow]
        exact hlow.trans_lt (by exact_mod_cast hn)
      exact (zpow_lt_zpow_iff_right₀ one_lt_two).mp hlt
    have hint : (n : ℚ) / pow2 (binaryExponent n - 52) =
        ((n * 2 ^ (52 - binaryExponent (n : ℚ)).toNat : ℤ) : ℚ) := by
      rw [pow2_eq_zpow, div_eq_mul_inv, ← zpow_neg, neg_sub]
      push_cast
      rw [← zpow_natCast, Int.toNat_of_nonneg (by omega)]
    simp only [roundBinary64, h0, if_false]
    rw [hint, roundNearestEven_intCast, ← hint, div_mul_cancel₀ _ hulp.ne']

/-- One rounded operation on an argument that is itself within `ε` of the exact `y`. -/
theorem roundBinary64_near {x y ε B : ℚ} (hx : |x - y| ≤ ε) (hy : |y| ≤ B) (hε : ε ≤ B) :
    |roundBinary64 x - y| ≤ ε + B / 2 ^ 52 := by
  have hsize : |x| ≤ B + ε := by linarith [abs_sub_abs_le_abs_sub x y]
  have hround := roundBinary64_error x
  linarith [abs_sub_le (roundBinary64 x) x y]

/-! ### The profile table (R149) -/

section
variable (p : ProfileName)

theorem divisor_bounds : 2047 ≤ divisor p ∧ divisor p ≤ 16383 := by cases p <;> decide

theorem divisor_pos : (0 : ℚ) < divisor p := by
  have := (divisor_bounds p).1
  exact_mod_cast (by omega : 0 < divisor p)

theorem divisor_cast : (divisor p : ℚ) = 2 ^ (profileEntry p).bitWidth - 1 := by
  simp [divisor, Nat.cast_sub Nat.one_le_two_pow]

theorem profileEntry_temp_bounds :
    -50 ≤ (profileEntry p).lowTemp ∧ (profileEntry p).highTemp ≤ 150 ∧
      70 ≤ (profileEntry p).highTemp - (profileEntry p).lowTemp := by cases p <;> decide

end

/-! ### The exact conversion (R150) -/

section
variable {p : ProfileName} {r r' : Nat}

theorem convert_zero (p : ProfileName) : convert p 0 = (profileEntry p).lowTemp := by simp [convert]

theorem convert_divisor (p : ProfileName) : convert p (divisor p) = (profileEntry p).highTemp := by
  simp [convert, (divisor_pos p).ne']

/-- Two raw values differ by at least the smallest step of the table, `70/16383` (R153). -/
theorem convert_add_step_le (h : r < r') : convert p r + 70 / 16383 ≤ convert p r' := by
  have hD := divisor_pos p
  have hmax : (divisor p : ℚ) ≤ 16383 := by exact_mod_cast (divisor_bounds p).2
  have hspan : (70 : ℚ) ≤ ((profileEntry p).highTemp - (profileEntry p).lowTemp : ℤ) := by
    exact_mod_cast (profileEntry_temp_bounds p).2.2
  have hr : (1 : ℚ) ≤ r' - r := by
    rw [le_sub_iff_add_le']
    exact_mod_cast h
  have hstep : (70 : ℚ) / 16383 ≤
      (r' - r) / divisor p * ((profileEntry p).highTemp - (profileEntry p).lowTemp : ℤ) :=
    calc (70 : ℚ) / 16383 = 1 / 16383 * 70 := by norm_num
      _ ≤ _ := by gcongr
  have hdiff : convert p r' - convert p r =
      (r' - r) / divisor p * ((profileEntry p).highTemp - (profileEntry p).lowTemp : ℤ) := by
    simp only [convert]
    ring
  linarith

end

/-! ### The binary64 conversion (R151) -/

theorem convertF64_zero (p : ProfileName) : convertF64 p 0 = (profileEntry p).lowTemp := by
  obtain ⟨hlow, hhigh, hspan⟩ := profileEntry_temp_bounds p
  have hfinal : roundBinary64 ((profileEntry p).lowTemp : ℚ) = (profileEntry p).lowTemp :=
    roundBinary64_intCast (abs_lt.mpr (by omega))
  simp [convertF64, hfinal]

theorem convertF64_divisor (p : ProfileName) : convertF64 p (divisor p) = (profileEntry p).highTemp := by
  obtain ⟨hlow, hhigh, hspan⟩ := profileEntry_temp_bounds p
  have hone : roundBinary64 1 = 1 := by exact_mod_cast roundBinary64_intCast (n := 1) (by norm_num)
  have hproduct := roundBinary64_intCast (n := (profileEntry p).highTemp - (profileEntry p).lowTemp)
    (abs_lt.mpr (by omega))
  have hsum := roundBinary64_intCast (n := (profileEntry p).highTemp) (abs_lt.mpr (by omega))
  simp only [convertF64, div_self (divisor_pos p).ne', hone, one_mul, hproduct]
  rw [← Int.cast_add, sub_add_cancel, hsum]

/-- Over the profile's range the three roundings of R151 stay within `10^-12` of the exact value. -/
theorem abs_convertF64_sub_convert_le {p : ProfileName} {r : Nat} (hr : r ≤ divisor p) :
    |convertF64 p r - convert p r| ≤ 1 / 10 ^ 12 := by
  obtain ⟨hlow, hhigh, hspan⟩ := profileEntry_temp_bounds p
  simp only [convertF64, convert]
  have hlow' : (-50 : ℚ) ≤ (profileEntry p).lowTemp := by exact_mod_cast hlow
  have hw0 : (0 : ℚ) ≤ ((profileEntry p).highTemp - (profileEntry p).lowTemp : ℤ) := by
    exact_mod_cast (by omega : 0 ≤ (profileEntry p).highTemp - (profileEntry p).lowTemp)
  have hw : (((profileEntry p).highTemp - (profileEntry p).lowTemp : ℤ) : ℚ) + (profileEntry p).lowTemp ≤ 150 := by
    exact_mod_cast (by omega : (profileEntry p).highTemp - (profileEntry p).lowTemp + (profileEntry p).lowTemp ≤ 150)
  have hx0 : (0 : ℚ) ≤ r / divisor p := by positivity
  have hx1 : (r : ℚ) / divisor p ≤ 1 := (div_le_one (divisor_pos p)).mpr (by exact_mod_cast hr)
  generalize (r : ℚ) / divisor p = x at *
  generalize (((profileEntry p).highTemp - (profileEntry p).lowTemp : ℤ) : ℚ) = w at *
  generalize ((profileEntry p).lowTemp : ℚ) = l at *
  have hxw0 : 0 ≤ x * w := mul_nonneg hx0 hw0
  have hxw : x * w ≤ w := mul_le_of_le_one_left hw0 hx1
  have hquotient : |roundBinary64 x - x| ≤ 0 + 1 / 2 ^ 52 :=
    roundBinary64_near (by simp) (abs_le.mpr ⟨by linarith, hx1⟩) zero_le_one
  have hproduct : |roundBinary64 (roundBinary64 x * w) - x * w| ≤ 200 / 2 ^ 52 + 200 / 2 ^ 52 := by
    refine roundBinary64_near ?_ (abs_le.mpr ⟨by linarith, by linarith⟩) (by norm_num)
    rw [← sub_mul, abs_mul, abs_of_nonneg hw0]
    calc _ ≤ (0 + 1 / 2 ^ 52) * 200 := mul_le_mul hquotient (by linarith) hw0 (by norm_num)
      _ = 200 / 2 ^ 52 := by norm_num
  have hsum : |roundBinary64 (roundBinary64 (roundBinary64 x * w) + l) - (x * w + l)| ≤
      (200 / 2 ^ 52 + 200 / 2 ^ 52) + 150 / 2 ^ 52 :=
    roundBinary64_near (by rwa [add_sub_add_right_eq_sub]) (abs_le.mpr ⟨by linarith, by linarith⟩) (by norm_num)
  exact hsum.trans (by norm_num)

/-- The smallest step of the exact values is far above the error of two binary64 values (R153). -/
theorem convertF64_lt_convertF64 {p : ProfileName} {r r' : Nat} (h : r < r') (hr' : r' ≤ divisor p) :
    convertF64 p r < convertF64 p r' := by
  have hstep := convert_add_step_le (p := p) h
  have herr := abs_le.mp (abs_convertF64_sub_convert_le (p := p) (h.le.trans hr'))
  have herr' := abs_le.mp (abs_convertF64_sub_convert_le hr')
  linarith

/-! ### The statements -/

/-- Settles O47: the sum over the common divisor, and the worked example by evaluation. -/
theorem exactConversion : Obligations.ExactConversion := by
  refine ⟨fun p raw => ?_, by norm_num [convert, divisor, profileEntry]⟩
  have hD := (divisor_pos p).ne'
  rw [← divisor_cast, convert]
  push_cast
  field_simp

/-- Settles O48: the exact step of at least `70/16383` outweighs the error of `10^-12` at both ends, and the operations at
the two endpoints are exact. -/
theorem conversionMonotone : Obligations.ConversionMonotone := by
  intro p
  refine ⟨fun r r' h hr' => ⟨?_, convertF64_lt_convertF64 h hr'⟩, convert_zero p, convertF64_zero p,
    convert_divisor p, convertF64_divisor p⟩
  linarith [convert_add_step_le (p := p) h]

end Sys2Proof.Machine
end

section
/-! SUPPORT. Exceptions (60_exceptions.md): the five ways in which an operation flushes a frame, and what a flush saves,
changes and keeps (R161, R162, R168). -/

namespace Sys2Proof.Machine

/-! ### The causes of a flush -/

/-- The operation flushes the frame in progress of the started decoder `s` with the given status and leaves it in the state
named last: one constructor for each place of the handlers that calls `flush`. -/
inductive Flushes (s : State) : Instr → Status → State → Prop where
  /-- A packet-start gap (R101). -/
  | packetStart {tick h : Tick} (hh : s.dec.lastHigh = some h)
      (gap : s.params.packetStartTicks < (tickDiff h tick).toNat) :
      Flushes s (.low tick) .ok (lowPacketStart tick s)
  /-- A byte-start gap of a frame in progress whose last byte has not exactly nine bits (R102). -/
  | shortByte {tick h : Tick} (hh : s.dec.lastHigh = some h) (hp : s.dec.phase ≠ .idle) (hc : s.dec.bitCount ≠ 9)
      (gap : s.params.byteStartTicks < (tickDiff h tick).toNat)
      (noPacket : (tickDiff h tick).toNat ≤ s.params.packetStartTicks) :
      Flushes s (.low tick) .bitCountError (lowBitCountError tick s)
  /-- A ninth bit that makes the running parity odd (R115). -/
  | oddNinthBit {tick l : Tick} (hl : s.dec.lastLow = some l) (hp : s.dec.phase = .decodingBits)
      (hc : s.dec.bitCount = 8) (odd : (s.dec.parity ^^ classifyBit s (tickDiff l tick)) = true) :
      Flushes s (.high tick) .parityError (highError .parityError tick s)
  /-- A tenth bit (R116). -/
  | tenthBit {tick l : Tick} (hl : s.dec.lastLow = some l) (hp : s.dec.phase = .decodingBits)
      (hc : 9 ≤ s.dec.bitCount) :
      Flushes s (.high tick) .bitCountError (highError .bitCountError tick s)
  /-- A TIMEOUT (R125). -/
  | timeout (tick : Tick) : Flushes s (.timeout tick) .ok (onTimeout s)

section
variable {s t : State} {i : Instr} {st : Status}

/-- What `Flushes` names is what the model does. -/
theorem Flushes.effect_eq (h : Flushes s i st t) (hs : s.dec.started = true) : effect i s = t := by
  cases h with
  | packetStart hh gap => rw [effect_low_of_started hs, onLow_packet_start hh gap]
  | shortByte hh hp hc gap noPacket => rw [effect_low_of_started hs, onLow_bitCount_error hh noPacket gap hp hc]
  | oddNinthBit hl hp hc odd => rw [effect_high_of_started hs, onHigh_ninth_bit hl hp hc, if_pos odd]
  | tenthBit hl hp hc => rw [effect_high_of_started hs, onHigh_tenth_bit hl hp hc]
  | timeout tick => rw [effect_timeout_of_started hs]

theorem Flushes.of_effect {u : State} (h : Flushes s i st u) (hs : s.dec.started = true) (ht : effect i s = t) :
    Flushes s i st t := by
  rwa [← ht, h.effect_eq hs]

theorem Flushes.emitted_eq (h : Flushes s i st t) : emitted s t = framesOf (pendingFrame s st) := by
  cases h <;> simp [emitted]

end

theorem onLow_emits_nothing_or_flushes (s : State) (tick : Tick) :
    emitted s (onLow tick s) = [] ∨ ∃ st, Flushes s (.low tick) st (onLow tick s) := by
  rcases onLow_cases s tick with ⟨h, -⟩ | ⟨g, hh, ⟨gap, h⟩ | ⟨noPacket, gap, hp, ⟨-, h⟩ | ⟨hc, h⟩⟩⟩ <;> rw [h]
  · exact .inl (by simp [emitted])
  · exact .inr ⟨_, .packetStart hh gap⟩
  · exact .inl (by simp [emitted])
  · exact .inr ⟨_, .shortByte hh hp hc gap noPacket⟩

theorem onHigh_emits_nothing_or_flushes (s : State) (tick : Tick) :
    emitted s (onHigh tick s) = [] ∨ ∃ st, Flushes s (.high tick) st (onHigh tick s) := by
  rcases onHigh_cases s tick with
    ⟨-, h⟩ | ⟨l, hl, ⟨-, h⟩ | ⟨hp, ⟨-, h⟩ | ⟨hc, odd, h⟩ | ⟨-, -, h⟩ | ⟨hc, h⟩⟩⟩ <;> rw [h]
  · exact .inl (by simp [emitted])
  · exact .inl (by simp [emitted])
  · exact .inl (by simp [emitted])
  · exact .inr ⟨_, .oddNinthBit hl hp hc odd⟩
  · exact .inl (by simp [emitted])
  · exact .inr ⟨_, .tenthBit hl hp hc⟩

/-- No operation emits a Frame but by a flush of a started decoder. -/
theorem effect_emits_nothing_or_flushes (i : Instr) (s : State) :
    emitted s (effect i s) = [] ∨ (s.dec.started = true ∧ ∃ st, Flushes s i st (effect i s)) := by
  rcases effect_cases i s with
    ⟨-, -, he⟩ | ⟨hs, tick, rfl, he⟩ | ⟨hs, tick, rfl, he⟩ | ⟨hs, tick, rfl, he⟩ | ⟨-, ⟨b, -, he⟩ | he⟩ <;> rw [he]
  · exact .inl (emitted_self s)
  · exact (onLow_emits_nothing_or_flushes s tick).imp_right (⟨hs, ·⟩)
  · exact (onHigh_emits_nothing_or_flushes s tick).imp_right (⟨hs, ·⟩)
  · exact .inr ⟨hs, .ok, .timeout tick⟩
  · exact .inl (by simp [emitted])
  · exact .inl (by simp [emitted])

/-- A Frame is emitted exactly by a flush that finds a frame in progress, and it holds the buffer whole (R44, R160). -/
theorem mem_emitted_iff {i : Instr} {s t : State} {bs : List Byte} {st : Status} (ht : effect i s = t) :
    ⟨bs, st⟩ ∈ emitted s t ↔
      bs = s.dec.bytes ∧ s.dec.bytes ≠ [] ∧ s.dec.started = true ∧ Flushes s i st t := by
  subst ht
  constructor
  · intro hmem
    rcases effect_emits_nothing_or_flushes i s with hno | ⟨hs, st', hf⟩
    · simp [hno] at hmem
    · rw [hf.emitted_eq, framesOf_pendingFrame] at hmem
      split at hmem
      next => cases hmem
      next hb =>
        obtain ⟨rfl, rfl⟩ : bs = s.dec.bytes ∧ st = st' := by simpa using hmem
        exact ⟨rfl, hb, hs, hf⟩
  · rintro ⟨rfl, hb, -, hf⟩
    simp [hf.emitted_eq, hb]

/-! ### The state behind a flush (R168) -/

section
variable {s t : State} {i : Instr} {st : Status}

theorem Flushes.started_eq (h : Flushes s i st t) : t.dec.started = s.dec.started := by cases h <;> rfl

theorem Flushes.wdArmed_eq (h : Flushes s i st t) : t.dec.wdArmed = false := by cases h <;> rfl

theorem Flushes.byte_cleared (h : Flushes s i st t) :
    t.dec.bitCount = 0 ∧ t.dec.parity = false ∧ t.dec.calib = none := by cases h <;> exact ⟨rfl, rfl, rfl⟩

/-- The event's own tick is recorded, the other tick register is kept. -/
theorem Flushes.ticks (h : Flushes s i st t) :
    (∃ tick, i = .low tick ∧ t.dec.lastLow = some tick ∧ t.dec.lastHigh = s.dec.lastHigh) ∨
    (∃ tick, i = .high tick ∧ t.dec.lastHigh = some tick ∧ t.dec.lastLow = s.dec.lastLow) ∨
    (∃ tick, i = .timeout tick ∧ t.dec.lastLow = s.dec.lastLow ∧ t.dec.lastHigh = s.dec.lastHigh) := by
  cases h with
  | packetStart => exact .inl ⟨_, rfl, rfl, rfl⟩
  | shortByte => exact .inl ⟨_, rfl, rfl, rfl⟩
  | oddNinthBit => exact .inr (.inl ⟨_, rfl, rfl, rfl⟩)
  | tenthBit => exact .inr (.inl ⟨_, rfl, rfl, rfl⟩)
  | timeout => exact .inr (.inr ⟨_, rfl, rfl, rfl⟩)

/-- Control goes to `Idle`, but for a packet-start gap, which begins the next frame. -/
theorem Flushes.phase_bytes (h : Flushes s i st t) :
    (t.dec.phase = .idle ∧ t.dec.bytes = []) ∨
    (st = .ok ∧ (∃ tick, i = .low tick) ∧ t.dec.phase = .awaitingByteCalibration ∧ t.dec.bytes = [0x00#8]) := by
  cases h with
  | packetStart => exact .inr ⟨rfl, ⟨_, rfl⟩, rfl, rfl⟩
  | shortByte => exact .inl ⟨rfl, rfl⟩
  | oddNinthBit => exact .inl ⟨rfl, rfl⟩
  | tenthBit => exact .inl ⟨rfl, rfl⟩
  | timeout => exact .inl ⟨rfl, rfl⟩

/-- An error status leaves the decoder in `Idle` (R161, R162). -/
theorem Flushes.idle_of_error (h : Flushes s i st t) (hst : st ≠ .ok) : t.dec.phase = .idle ∧ t.dec.bytes = [] :=
  h.phase_bytes.resolve_right fun ⟨hok, _⟩ => hst hok

end

/-! ### What the invariant adds -/

section
variable {s t : State} {i : Instr}

/-- The ninth bit and the eight received before it hold an odd number of 1s. -/
theorem State.Inv.flushes_parityError_iff (hinv : s.Inv) (hs : s.dec.started = true) (ht : effect i s = t) :
    Flushes s i .parityError t ↔
      ∃ tick l c, i = .high tick ∧ s.dec.lastLow = some l ∧ s.dec.calib = some c ∧ s.dec.phase = .decodingBits ∧
        s.dec.bitCount = 8 ∧
        parityOf (dataBits s.dec.activeByte ++ [decide ((tickDiff l tick).toNat < c.toNat)]) = true := by
  constructor
  · intro hf
    cases hf with
    | @oddNinthBit tick l hl hp hc odd =>
      obtain ⟨c, hcal⟩ := hinv.calib_of_decodingBits hp
      exact ⟨tick, l, c, rfl, hl, hcal, hp, hc,
        by rw [hinv.parityOf_nine_bits hp hc, ← classifyBit_of_calib _ hcal, odd]⟩
  · rintro ⟨tick, l, c, rfl, hl, hcal, hp, hc, hpar⟩
    rw [hinv.parityOf_nine_bits hp hc, ← classifyBit_of_calib _ hcal] at hpar
    exact (Flushes.oddNinthBit hl hp hc hpar).of_effect hs ht

theorem State.Inv.bitCount_le_nine (hinv : s.Inv) : s.dec.bitCount ≤ 9 := by
  obtain ⟨⟨-, hidle, hawait, hdec, -⟩, -⟩ := hinv
  cases hp : s.dec.phase with
  | idle => simp [hidle hp]
  | awaitingByteCalibration => simp [hawait hp]
  | decodingBits => exact (hdec hp).2.2

theorem State.Inv.lastLow_of_decodingBits (hinv : s.Inv) (hp : s.dec.phase = .decodingBits) :
    ∃ l, s.dec.lastLow = some l := by
  obtain ⟨⟨-, -, -, -, -, -, hticks, -⟩, -⟩ := hinv
  exact Option.isSome_iff_exists.mp (hticks (by simp [hp])).1

theorem State.Inv.flushes_bitCountError_iff (hinv : s.Inv) (hs : s.dec.started = true) (ht : effect i s = t) :
    Flushes s i .bitCountError t ↔
      (∃ tick h, i = .low tick ∧ s.dec.lastHigh = some h ∧ s.dec.phase ≠ .idle ∧ s.dec.bitCount ≠ 9 ∧
        s.params.byteStartTicks < (tickDiff h tick).toNat ∧ (tickDiff h tick).toNat ≤ s.params.packetStartTicks) ∨
      (∃ tick, i = .high tick ∧ s.dec.phase = .decodingBits ∧ s.dec.bitCount = 9) := by
  constructor
  · intro hf
    cases hf with
    | @shortByte tick h hh hp hc gap noPacket => exact .inl ⟨tick, h, rfl, hh, hp, hc, gap, noPacket⟩
    | @tenthBit tick l hl hp hc => exact .inr ⟨tick, rfl, hp, le_antisymm hinv.bitCount_le_nine hc⟩
  · rintro (⟨tick, h, rfl, hh, hp, hc, gap, noPacket⟩ | ⟨tick, rfl, hp, hc⟩)
    · exact (Flushes.shortByte hh hp hc gap noPacket).of_effect hs ht
    · obtain ⟨l, hl⟩ := hinv.lastLow_of_decodingBits hp
      exact (Flushes.tenthBit hl hp hc.ge).of_effect hs ht

/-- The bits received stand in the low places of the last byte (R24 items 1, 3 and 6). -/
theorem State.Inv.activeByte_lt (hinv : s.Inv) (hc : s.dec.bitCount ≠ 9) :
    s.dec.activeByte.toNat < 2 ^ s.dec.bitCount := by
  have hle := hinv.bitCount_le_nine
  obtain ⟨⟨hempty, hidle, hawait, -, -, hpart, -⟩, -⟩ := hinv
  cases hp : s.dec.phase with
  | idle => simp [hempty.mp hp, hidle hp]
  | awaitingByteCalibration =>
    obtain ⟨hzero, -, -, -, hbyte⟩ := hawait hp
    rw [hbyte, hzero]
    decide
  | decodingBits => exact (hpart hp (by omega)).1

/-- Nine bits have even parity (R24 item 5), and are there only while bits are received. -/
theorem State.Inv.parity_of_nine_bits (hinv : s.Inv) (hc : s.dec.bitCount = 9) : s.dec.parity = false := by
  obtain ⟨⟨-, hidle, hawait, -, heven, -⟩, -⟩ := hinv
  cases hp : s.dec.phase with
  | idle => exact (hidle hp).2.1
  | awaitingByteCalibration => exact (hawait hp).2.1
  | decodingBits => exact heven hp hc

end

/-! ### The statements -/

/-- Settles O27: the Frame comes by one of the five flushes, and each leaves such a state. -/
theorem flushAsTrapEntry : Obligations.FlushAsTrapEntry := by
  intro i s t bs status hexec hmem
  obtain ⟨hbs, -, -, hf⟩ := (mem_emitted_iff (exec_next_iff.mp hexec)).mp hmem
  obtain ⟨hcount, hparity, hcalib⟩ := hf.byte_cleared
  exact ⟨hbs, hf.started_eq, hf.wdArmed_eq, hcount, hparity, hcalib, hf.ticks, hf.phase_bytes⟩

/-- Settles O24: the one flush with this status is that of a ninth bit that makes the running parity odd, and the invariant
reads that parity as the parity of the nine bits. -/
theorem parityErrorCause : Obligations.ParityErrorCause := by
  refine ⟨rfl, fun i s t bs hinv hexec => ?_⟩
  have ht := exec_next_iff.mp hexec
  rw [mem_emitted_iff ht]
  refine ⟨⟨?_, ?_⟩, ?_⟩
  · rintro ⟨hbs, -, hs, hf⟩
    obtain ⟨tick, l, c, hi, hbyte⟩ := (hinv.flushes_parityError_iff hs ht).mp hf
    exact ⟨hbs, tick, l, c, hi, hs, hbyte⟩
  · rintro ⟨hbs, tick, l, c, hi, hs, hl, hcal, hp, hbits⟩
    exact ⟨hbs, hinv.bytes_ne_nil (by simp [hp]), hs,
      (hinv.flushes_parityError_iff hs ht).mpr ⟨tick, l, c, hi, hl, hcal, hp, hbits⟩⟩
  · rintro ⟨-, -, -, hf⟩
    obtain ⟨hphase, hbytes⟩ := hf.idle_of_error (by simp)
    exact ⟨hphase, hbytes, hf.wdArmed_eq, fun p => by simp [temperatureOf, rawOf, accept]⟩

/-- Settles O25: two of the five flushes have this status, and the invariant says what the last byte holds at each. -/
theorem bitCountErrorCauses : Obligations.BitCountErrorCauses := by
  refine ⟨rfl, fun i s t bs hinv hexec => ?_⟩
  have ht := exec_next_iff.mp hexec
  rw [mem_emitted_iff ht]
  refine ⟨⟨?_, ?_⟩, ?_⟩
  · rintro ⟨hbs, -, hs, hf⟩
    exact ⟨hbs, hs, (hinv.flushes_bitCountError_iff hs ht).mp hf⟩
  · rintro ⟨hbs, hs, hcause⟩
    have hp : s.dec.phase ≠ .idle := by
      rcases hcause with ⟨-, -, -, -, hp, -⟩ | ⟨-, -, hp, -⟩
      · exact hp
      · simp [hp]
    exact ⟨hbs, hinv.bytes_ne_nil hp, hs, (hinv.flushes_bitCountError_iff hs ht).mpr hcause⟩
  · rintro ⟨-, -, -, hf⟩
    obtain ⟨hphase, hbytes⟩ := hf.idle_of_error (by simp)
    exact ⟨hphase, hbytes, hinv.activeByte_lt, hinv.parity_of_nine_bits⟩

end Sys2Proof.Machine
end

section
/-! SUPPORT. Port words and the step (30_encoding.md sections 2, 3 and 8, 40_common_operations.md section 6): each operation
has one word and each legal word one operation; what a step does with each kind of word. -/

namespace Sys2Proof.Machine

/-! ### Words and operations -/

@[simp] theorem decode_encode (i : Instr) : decode (encode i) = .ok i := by
  cases i with
  | low tick => simp [encode, decode, decodeEvent]
  | high tick => simp [encode, decode, decodeEvent]
  | timeout tick => simp [encode, decode, decodeEvent]
  | stop => rfl
  | start => rfl
  | reset => rfl

theorem encode_wellFormed (i : Instr) : (encode i).wellFormed = true := by
  cases i with
  | low tick => exact (Laws.LegalWord.low tick).2
  | high tick => exact (Laws.LegalWord.high tick).2
  | timeout tick => exact (Laws.LegalWord.timeout tick).2
  | stop => exact Laws.LegalWord.stop.2
  | start => exact Laws.LegalWord.start.2
  | reset => exact Laws.LegalWord.reset.2

/-- A word is the event word of its tick under the level it shows. -/
theorem eventWord_tickOf {w : EvWord} {l : BitVec 2} (h : levelOf w = l) : eventWord l (tickOf w) = w := by
  rw [← h, eventWord_fields]

theorem encode_of_decodeEvent {w : EvWord} {i : Instr} (h : decodeEvent w = .ok i) : encode i = .ev w := by
  unfold decodeEvent at h
  split_ifs at h with h0 h1 h2
  · cases h; simp [encode, eventWord_tickOf h0]
  · cases h; simp [encode, eventWord_tickOf h1]
  · cases h; simp [encode, eventWord_tickOf h2]

theorem encode_decodeCommand (b : BitVec 1) : encode (decodeCommand b) = .cmd b := by
  revert b; decide

theorem encode_of_decode {p : PortInput} {i : Instr} (h : decode p = .ok i) : encode i = p := by
  cases p with
  | ev w => exact encode_of_decodeEvent h
  | cmd b =>
    cases h
    exact encode_decodeCommand b
  | rst b =>
    simp only [decode] at h
    split_ifs at h with hb
    cases h; simp [encode, hb]

/-- The reserved level code is the only one that names no operation (R69). -/
theorem decode_ev_reserved_iff (w : EvWord) : decode (.ev w) = .error .reservedLevel ↔ w.toNat / 2 ^ 32 = 3 := by
  have hcodes : ∀ l : BitVec 2, (l ≠ 0b00#2 ∧ l ≠ 0b01#2 ∧ l ≠ 0b10#2) ↔ l.toNat = 3 := by decide
  rw [← levelOf_toNat, ← hcodes]
  simp only [decode, decodeEvent]
  split_ifs <;> simp_all

theorem eventWord_ofNat {level : Nat} (h : level < 4) (tick : Tick) :
    BitVec.ofNat 34 (level * 2 ^ 32 + tick.toNat) = eventWord (BitVec.ofNat 2 level) tick := by
  simp [eventWord, Nat.mod_eq_of_lt h]

/-! ### Parameters and steps -/

theorem Params.wellFormed_eq_false {p : Params}
    (h : p.packetStartTicks ≤ p.byteStartTicks ∨ 2 ^ 32 ≤ p.packetStartTicks ∨ p.watchdogMs = 0) :
    p.wellFormed = false := by
  simp only [Params.wellFormed, Bool.and_eq_false_iff, decide_eq_false_iff_not]
  omega

theorem step_of_inputs_nil {s : State} (hw : s.params.wellFormed = true) (hi : s.inputs = []) : step s = .next s := by
  simp [step, fetch, hw, hi]

theorem step_of_decode_ok {s : State} {p : PortInput} {rest : List PortInput} {i : Instr}
    (hw : s.params.wellFormed = true) (hi : s.inputs = p :: rest) (hd : decode p = .ok i) :
    step s = exec i { s with inputs := rest } := by
  simp [step, fetch, hw, hi, hd]

theorem step_ne_fault (s : State) (f : Fault) : step s ≠ .fault f := by
  rcases step_cases s with ⟨-, h⟩ | ⟨-, -, h⟩ | ⟨p, rest, -, -, ⟨i, -, h⟩ | ⟨-, h⟩ | ⟨-, h⟩⟩ <;> simp [h]

/-- The level code is reserved only on the event port. -/
theorem eq_ev_of_decode_reserved {p : PortInput} (h : decode p = .error .reservedLevel) : ∃ w, p = .ev w := by
  cases p with
  | ev w => exact ⟨w, rfl⟩
  | cmd b => cases h
  | rst b =>
    simp only [decode] at h
    split_ifs at h
    cases h

/-! ### The statements -/

/-- Settles O3: by the fields of the event word, operation by operation. -/
theorem decodeOfEncode : Obligations.DecodeOfEncode := fun i => ⟨decode_encode i, encode_wellFormed i⟩

/-- Settles O4: a word is the event word of its two fields; the one-bit ports have two words each. -/
theorem encodeOfDecode : Obligations.EncodeOfDecode := fun _ _ h => encode_of_decode h

/-- Settles O9: a step answers anything but a next state only for a reserved level or for ill-formed parameters. -/
theorem stepNeverFaultsNorSticks : Obligations.StepNeverFaultsNorSticks := by
  refine fun s => ⟨step_ne_fault s, fun hw hlegal => ?_⟩
  rcases step_cases s with ⟨hill, -⟩ | ⟨-, -, h⟩ | ⟨p, rest, -, hi, ⟨i, -, h⟩ | ⟨hd, -⟩ | ⟨-, h⟩⟩
  · simp [hw] at hill
  · exact ⟨_, h⟩
  · exact ⟨_, h⟩
  · obtain ⟨w, rfl⟩ := eq_ev_of_decode_reserved hd
    exact absurd ((decode_ev_reserved_iff w).mp hd) (hlegal w rest hi)
  · exact ⟨_, h⟩

/-- Settles O2: by evaluation of the ten words. -/
theorem wordsOfTheSpecDecode : Obligations.WordsOfTheSpecDecode :=
  ⟨rfl, rfl, rfl, rfl, rfl, rfl, rfl, rfl, rfl, rfl⟩

/-- Settles O5: the number is the event word of its level, which is one of four. -/
theorem eventWordReadAsNumber : Obligations.EventWordReadAsNumber := by
  intro level tick h
  rw [eventWord_ofNat h]
  interval_cases level <;> simp [decode, decodeEvent]

/-- Settles O6: the fetch, unfolded once. -/
theorem stepRunsDecodedInput : Obligations.StepRunsDecodedInput := fun _ _ _ _ => step_of_decode_ok

/-- Settles O7: the two ways of the fetch to wait. -/
theorem stepWaitsWithoutOperation : Obligations.StepWaitsWithoutOperation := by
  refine fun s hw => ⟨step_of_inputs_nil hw, fun rest hi => ?_⟩
  have hd : decode (.rst 0#1) = .error .resetNotAsserted := rfl
  simp [step, fetch, hw, hi, hd]

/-- Settles O8: the two ways of the fetch to refuse. -/
theorem stepRefusals : Obligations.StepRefusals := by
  refine ⟨fun s w rest hw hi hlevel => ?_, fun s hill => ?_⟩
  · simp [step, fetch, hw, hi, (decode_ev_reserved_iff w).mpr hlevel]
  · simp [step, fetch, Params.wellFormed_eq_false hill]

end Sys2Proof.Machine
end

section
/-! SUPPORT. The invariant of R24 (10_state.md section 6): each outcome of an operation leaves the decoder in one of a few
shapes, and each shape meets the invariant. -/

namespace Sys2Proof.Machine

/-! ### Shapes of a decoder that meets the invariant -/

section
variable {d : Decoder}

/-- An idle decoder, started or with its tick registers cleared. -/
theorem Decoder.inv_of_cleared (hp : d.phase = .idle) (hb : d.bytes = []) (hc : d.bitCount = 0)
    (hpar : d.parity = false) (hcal : d.calib = none) (hw : d.wdArmed = false)
    (hs : d.started = true ∨ (d.lastLow = none ∧ d.lastHigh = none)) : d.Inv := by
  have hna : d.phase ≠ .awaitingByteCalibration := by simp [hp]
  have hnd : d.phase ≠ .decodingBits := by simp [hp]
  refine ⟨iff_of_true hp hb, fun _ => ⟨hc, hpar, hcal⟩, (absurd · hna), (absurd · hnd), (absurd · hnd), (absurd · hnd),
    absurd hp, by simp [hw], fun hstop => ⟨hp, ?_⟩⟩
  simpa [hw, hstop] using hs

/-- A decoder behind the start of a byte. -/
theorem Decoder.inv_of_awaiting (hp : d.phase = .awaitingByteCalibration) (hb : ∃ done, d.bytes = done ++ [0x00#8])
    (hc : d.bitCount = 0) (hpar : d.parity = false) (hcal : d.calib = none) (hw : d.wdArmed = false)
    (hl : d.lastLow.isSome = true) (hh : d.lastHigh.isSome = true) (hs : d.started = true) : d.Inv := by
  obtain ⟨done, hb⟩ := hb
  have hzero : d.activeByte = 0#8 := by simp [Decoder.activeByte, hb]
  have hne : d.bytes ≠ [] := by simp [hb]
  have hni : d.phase ≠ .idle := by simp [hp]
  have hnd : d.phase ≠ .decodingBits := by simp [hp]
  exact ⟨iff_of_false hni hne, (absurd · hni), fun _ => ⟨hc, hpar, hcal, hne, hzero⟩, (absurd · hnd), (absurd · hnd),
    (absurd · hnd), fun _ => ⟨hl, hh⟩, by simp [hw], by simp [hs]⟩

/-- A decoder in the middle of a byte: the bits received stand in the low places of the active byte. -/
theorem Decoder.inv_of_partial_byte (hp : d.phase = .decodingBits) (hb : ∃ done b, d.bytes = done ++ [b] ∧
      b.toNat < 2 ^ d.bitCount ∧ d.parity = parityOf (dataBits b))
    (hc : d.bitCount ≤ 8) (hcal : d.calib.isSome = true) (hw : d.wdArmed = false)
    (hl : d.lastLow.isSome = true) (hh : d.lastHigh.isSome = true) (hs : d.started = true) : d.Inv := by
  obtain ⟨done, b, hb, hlt, hpar⟩ := hb
  have hactive : d.activeByte = b := by simp [Decoder.activeByte, hb]
  have hne : d.bytes ≠ [] := by simp [hb]
  have hni : d.phase ≠ .idle := by simp [hp]
  have hna : d.phase ≠ .awaitingByteCalibration := by simp [hp]
  exact ⟨iff_of_false hni hne, (absurd · hni), (absurd · hna), fun _ => ⟨hcal, hne, by omega⟩,
    fun _ h9 => absurd h9 (by omega), fun _ _ => hactive ▸ ⟨hlt, hpar⟩, fun _ => ⟨hl, hh⟩, by simp [hw], by simp [hs]⟩

/-- A decoder behind a complete byte of even parity. -/
theorem Decoder.inv_of_complete_byte (hp : d.phase = .decodingBits) (hb : d.bytes ≠ []) (hc : d.bitCount = 9)
    (hpar : d.parity = false) (hcal : d.calib.isSome = true) (hl : d.lastLow.isSome = true)
    (hh : d.lastHigh.isSome = true) (hs : d.started = true) : d.Inv := by
  have hni : d.phase ≠ .idle := by simp [hp]
  have hna : d.phase ≠ .awaitingByteCalibration := by simp [hp]
  exact ⟨iff_of_false hni hb, (absurd · hni), (absurd · hna), fun _ => ⟨hcal, hb, hc.le⟩, fun _ _ => hpar,
    fun _ h8 => absurd h8 (by omega), fun _ => ⟨hl, hh⟩, fun _ => ⟨hp, hc⟩, by simp [hs]⟩

/-- Recording ticks and disarming keep the invariant of a started decoder. -/
theorem Decoder.Inv.with_ticks {l h : Option Tick} (hd : d.Inv) (hs : d.started = true)
    (hl : d.lastLow.isSome = true → l.isSome = true) (hh : d.lastHigh.isSome = true → h.isSome = true) :
    Decoder.Inv { d with lastLow := l, lastHigh := h, wdArmed := false } := by
  obtain ⟨hempty, hidle, hawait, hdec, heven, hpart, hticks, -, -⟩ := hd
  refine ⟨hempty, hidle, hawait, hdec, heven, hpart, fun hp => ?_, nofun, by simp [hs]⟩
  obtain ⟨hl', hh'⟩ := hticks hp
  exact ⟨hl hl', hh hh'⟩

end

/-! ### What the events leave -/

section
variable {s : State} (tick : Tick)

theorem State.Inv.idle_iff (hs : s.Inv) : s.dec.phase = .idle ↔ s.dec.bytes = [] := by
  obtain ⟨⟨hempty, -⟩, -⟩ := hs
  exact hempty

theorem State.Inv.onLow (hs : s.Inv) (hst : s.dec.started = true) : (onLow tick s).dec.Inv := by
  rcases onLow_cases s tick with ⟨h, -⟩ | ⟨g, hh, ⟨-, h⟩ | ⟨-, -, hp, ⟨-, h⟩ | ⟨-, h⟩⟩⟩ <;> rw [h]
  · exact hs.1.with_ticks hst (fun _ => rfl) id
  · exact Decoder.inv_of_awaiting rfl ⟨[], rfl⟩ rfl rfl rfl rfl rfl (by simp [lowPacketStart, hh]) hst
  · exact Decoder.inv_of_awaiting rfl ⟨s.dec.bytes, rfl⟩ rfl rfl rfl rfl rfl (by simp [lowByteStart, hh]) hst
  · exact Decoder.inv_of_cleared rfl rfl rfl rfl rfl rfl (.inl hst)

/-- The calibration pulse leaves an empty byte of no bits. -/
theorem State.Inv.highCalibrate (hs : s.Inv) (hst : s.dec.started = true) (lw : Tick) (hl : s.dec.lastLow.isSome = true)
    (hp : s.dec.phase = .awaitingByteCalibration) : (highCalibrate lw tick s).dec.Inv := by
  obtain ⟨⟨-, -, hawait, -⟩, -⟩ := hs
  obtain ⟨hc, hpar, -, hne, hzero⟩ := hawait hp
  obtain ⟨done, b, hb⟩ := (List.eq_nil_or_concat' s.dec.bytes).resolve_left hne
  obtain rfl : b = 0#8 := by simpa [Decoder.activeByte, hb] using hzero
  refine Decoder.inv_of_partial_byte rfl ⟨done, 0#8, hb, ?_, ?_⟩ ?_ rfl rfl hl rfl hst
  · simp [Machine.highCalibrate, hc]
  · exact hpar.trans (by decide)
  · simp [Machine.highCalibrate, hc]

/-- A data bit is shifted in behind the others without loss, and counted in the parity (R113, R114). -/
theorem State.Inv.highDataBit (hs : s.Inv) (hst : s.dec.started = true) (bit : Bool)
    (hp : s.dec.phase = .decodingBits) (hc : s.dec.bitCount < 8) : (highDataBit bit tick s).dec.Inv := by
  obtain ⟨⟨-, -, -, hdec, -, hpart, hticks, -⟩, -⟩ := hs
  obtain ⟨hcal, hne, -⟩ := hdec hp
  obtain ⟨hlt, hpar⟩ := hpart hp (by omega)
  obtain ⟨done, b, hb⟩ := (List.eq_nil_or_concat' s.dec.bytes).resolve_left hne
  simp only [Decoder.activeByte, hb, List.getLastD_concat] at hlt hpar
  have hsmall : b.toNat < 128 := hlt.trans_le (Nat.pow_le_pow_right two_pos (by omega : s.dec.bitCount ≤ 7))
  refine Decoder.inv_of_partial_byte hp ⟨done, shiftBit b bit, ?_, ?_, ?_⟩ hc hcal rfl
    (hticks (by simp [hp])).1 rfl hst
  · simp [Machine.highDataBit, hb]
  · have := bit.toNat_lt
    simp only [Machine.highDataBit, shiftBit_toNat hsmall, pow_succ]
    omega
  · simp [Machine.highDataBit, parityOf_shiftBit hsmall, hpar]

theorem State.Inv.onHigh (hs : s.Inv) (hst : s.dec.started = true) : (onHigh tick s).dec.Inv := by
  rcases onHigh_cases s tick with
    ⟨-, h⟩ | ⟨l, hl, ⟨hp, h⟩ | ⟨hp, ⟨hc, h⟩ | ⟨-, -, h⟩ | ⟨-, -, h⟩ | ⟨-, h⟩⟩⟩ <;> rw [h]
  · exact hs.1.with_ticks hst id fun _ => rfl
  · exact hs.highCalibrate tick hst _ (by simp [hl]) hp
  · exact hs.highDataBit tick hst _ hp hc
  · exact Decoder.inv_of_cleared rfl rfl rfl rfl rfl rfl (.inl hst)
  · obtain ⟨c, hcal⟩ := hs.calib_of_decodingBits hp
    exact Decoder.inv_of_complete_byte hp (hs.bytes_ne_nil (by simp [hp])) rfl rfl (by simp [highValidByte, hcal])
      (by simp [highValidByte, hl]) rfl hst
  · exact Decoder.inv_of_cleared rfl rfl rfl rfl rfl rfl (.inl hst)

end

/-! ### Every operation -/

/-- An operation emits nothing, or the whole non-empty buffer in one Frame (R44). -/
theorem emitted_effect (i : Instr) (s : State) :
    emitted s (effect i s) = [] ∨
      ∃ st, emitted s (effect i s) = [⟨s.dec.bytes, st⟩] ∧ s.dec.bytes ≠ [] := by
  rcases effect_emits_nothing_or_flushes i s with h | ⟨-, st, hf⟩
  · exact .inl h
  · rw [hf.emitted_eq, framesOf_pendingFrame]
    split
    · exact .inl rfl
    · exact .inr ⟨st, rfl, ‹_›⟩

theorem framesOf_effect (i : Instr) (s : State) :
    framesOf (effect i s).out = framesOf s.out ++ emitted s (effect i s) := by
  rw [effect_out, framesOf_append, emitted]

theorem framesNonempty_effect {s : State} (i : Instr) (hs : FramesNonempty s) : FramesNonempty (effect i s) := by
  intro f hf
  rw [framesOf_effect, List.mem_append] at hf
  rcases hf with hf | hf
  · exact hs f hf
  · rcases emitted_effect i s with h | ⟨st, h, hne⟩ <;> rw [h] at hf
    · cases hf
    · obtain rfl := List.mem_singleton.mp hf
      exact hne

/-- Only a unit with a driver is started, and only START starts it. -/
theorem startedHasDriver_effect {s : State} (i : Instr) (hs : StartedHasDriver s) : StartedHasDriver (effect i s) := by
  rw [StartedHasDriver, (effect_params_inputs i s).1]
  rcases effect_cases i s with
    ⟨-, -, he⟩ | ⟨hst, -⟩ | ⟨hst, -⟩ | ⟨hst, -⟩ | ⟨-, ⟨b, hb, he⟩ | he⟩
  · rw [he]; exact hs
  · exact fun _ => hs hst
  · exact fun _ => hs hst
  · exact fun _ => hs hst
  · rw [he]; exact hb
  · rw [he]; exact hs

theorem decoder_inv_effect {s : State} (i : Instr) (hs : s.Inv) : (effect i s).dec.Inv := by
  rcases effect_cases i s with
    ⟨-, -, he⟩ | ⟨hst, tick, -, he⟩ | ⟨hst, tick, -, he⟩ | ⟨hst, tick, -, he⟩ | ⟨-, ⟨b, -, he⟩ | he⟩ <;> rw [he]
  · exact hs.1
  · exact hs.onLow tick hst
  · exact hs.onHigh tick hst
  · rw [onTimeout_eq]
    exact Decoder.inv_of_cleared rfl rfl rfl rfl rfl rfl (.inl hst)
  · exact Decoder.inv_of_cleared rfl rfl rfl rfl rfl rfl (.inr ⟨rfl, rfl⟩)
  · exact hs.1

/-- Every operation keeps the invariant. -/
theorem State.Inv.effect {s : State} (i : Instr) (hs : s.Inv) : (effect i s).Inv :=
  ⟨decoder_inv_effect i hs, startedHasDriver_effect i hs.2.1, framesNonempty_effect i hs.2.2⟩

theorem State.Inv.effects {s : State} (is : List Instr) (hs : s.Inv) : (effects is s).Inv := by
  induction is generalizing s with
  | nil => exact hs
  | cons i is ih => exact ih (hs.effect i)

theorem State.inv_of_reset {s : State} (hd : s.dec = State.reset.dec) (ho : s.out = []) : s.Inv := by
  refine ⟨?_, ?_, ?_⟩
  · rw [hd]
    exact Decoder.inv_of_cleared rfl rfl rfl rfl rfl rfl (.inr ⟨rfl, rfl⟩)
  · simp [StartedHasDriver, hd, State.reset, Decoder.reset]
  · simp [FramesNonempty, ho]

/-- What a construction can answer (R6, R164). -/
theorem construct_next {p : Params} {s : State} (h : construct p = .next s) : s = { State.reset with params := p } := by
  unfold construct at h
  split_ifs at h
  exact (Host.Outcome.next.inj h).symm

/-! ### The statements -/

/-- Settles O32: a step waits or runs one operation on the state with its input taken, and the invariant speaks of no
input. -/
theorem invariantKeptByStep : Obligations.InvariantKeptByStep := by
  intro s t hs hstep
  rcases step_cases s with ⟨-, h⟩ | ⟨-, -, h⟩ | ⟨p, rest, -, -, ⟨i, -, h⟩ | ⟨-, h⟩ | ⟨-, h⟩⟩ <;> rw [h] at hstep <;>
    cases hstep
  · exact hs
  · exact State.Inv.effect (s := { s with inputs := rest }) i hs
  · exact hs

/-- Settles O31: the reset decoder is idle and cleared. -/
theorem invariantAtReset : Obligations.InvariantAtReset := by
  refine ⟨State.inv_of_reset rfl rfl, fun p s h => ?_⟩
  rw [construct_next h]
  exact State.inv_of_reset rfl rfl

end Sys2Proof.Machine
end

section
/-! SUPPORT. The operations one by one (41_low_event.md, 42_high_event.md, 44_control_commands.md): the handlers' equations
read as next states, what each operation leaves as it is, and what it sends. -/

namespace Sys2Proof.Machine

/-! ### Events while stopped -/

theorem effect_of_stopped {i : Instr} {s : State} (hs : s.dec.started = false) (hi : i.isEvent = true) :
    effect i s = s := by
  cases i with
  | low tick => simp [effect, whenStarted, hs]
  | high tick => simp [effect, whenStarted, hs]
  | timeout tick => simp [effect, whenStarted, hs]
  | stop => cases hi
  | start => cases hi
  | reset => cases hi

/-! ### Registers that an event leaves as they are (R20) -/

section
variable (s : State) (tick : Tick)

theorem onLow_keeps : (onLow tick s).dec.started = s.dec.started ∧ (onLow tick s).dec.lastHigh = s.dec.lastHigh := by
  rcases onLow_cases s tick with ⟨h, -⟩ | ⟨-, -, ⟨-, h⟩ | ⟨-, -, -, ⟨-, h⟩ | ⟨-, h⟩⟩⟩ <;> rw [h] <;> exact ⟨rfl, rfl⟩

theorem onHigh_keeps : (onHigh tick s).dec.started = s.dec.started ∧ (onHigh tick s).dec.lastLow = s.dec.lastLow := by
  rcases onHigh_cases s tick with
    ⟨-, h⟩ | ⟨l, -, ⟨-, h⟩ | ⟨-, ⟨-, h⟩ | ⟨-, -, h⟩ | ⟨-, -, h⟩ | ⟨-, h⟩⟩⟩ <;> rw [h] <;> exact ⟨rfl, rfl⟩

theorem effect_low_keeps : (effect (.low tick) s).dec.started = s.dec.started ∧
    (effect (.low tick) s).dec.lastHigh = s.dec.lastHigh := by
  cases hs : s.dec.started with
  | false => rw [effect_of_stopped hs rfl]; exact ⟨hs, rfl⟩
  | true => rw [effect_low_of_started hs, ← hs]; exact onLow_keeps s tick

theorem effect_high_keeps : (effect (.high tick) s).dec.started = s.dec.started ∧
    (effect (.high tick) s).dec.lastLow = s.dec.lastLow := by
  cases hs : s.dec.started with
  | false => rw [effect_of_stopped hs rfl]; exact ⟨hs, rfl⟩
  | true => rw [effect_high_of_started hs, ← hs]; exact onHigh_keeps s tick

theorem effect_timeout_keeps : (effect (.timeout tick) s).dec.started = s.dec.started ∧
    (effect (.timeout tick) s).dec.lastLow = s.dec.lastLow ∧
    (effect (.timeout tick) s).dec.lastHigh = s.dec.lastHigh := by
  cases hs : s.dec.started with
  | false => rw [effect_of_stopped hs rfl]; exact ⟨hs, rfl, rfl⟩
  | true => rw [effect_timeout_of_started hs, onTimeout_eq]; exact ⟨hs, rfl, rfl⟩

end

/-! ### The frame byte buffer (R40) -/

/-- What an operation makes of the buffer, one constructor for each access: `t` is the state behind it. -/
inductive BufferAccess (s : State) : Instr → State → Prop where
  | keep {i : Instr} {t : State} (hb : t.dec.bytes = s.dec.bytes) : BufferAccess s i t
  /-- A byte-start gap behind nine bits (R84, R102). -/
  | beginByte {tick : Tick} {t : State} (hp : s.dec.phase ≠ .idle) (hc : s.dec.bitCount = 9)
      (hb : t.dec.bytes = s.dec.bytes ++ [0x00#8]) : BufferAccess s (.low tick) t
  /-- A packet-start gap (R83, R101). -/
  | beginFrame {tick : Tick} {t : State} (hb : t.dec.bytes = [0x00#8])
      (he : emitted s t = framesOf (pendingFrame s .ok)) : BufferAccess s (.low tick) t
  /-- A data bit (R113). -/
  | shift {tick : Tick} {t : State} (bit : Bool) (hc : s.dec.bitCount < 8)
      (hb : t.dec.bytes = shiftLast bit s.dec.bytes) : BufferAccess s (.high tick) t
  /-- A flush or a restart (R81, R82). -/
  | clear {i : Instr} {t : State} (hb : t.dec.bytes = []) : BufferAccess s i t

theorem bufferAccess_onLow (s : State) (tick : Tick) : BufferAccess s (.low tick) (onLow tick s) := by
  rcases onLow_cases s tick with ⟨h, -⟩ | ⟨-, -, ⟨-, h⟩ | ⟨-, -, hp, ⟨hc, h⟩ | ⟨-, h⟩⟩⟩ <;> rw [h]
  · exact .keep rfl
  · exact .beginFrame rfl (by simp [emitted])
  · exact .beginByte hp hc rfl
  · exact .clear rfl

theorem bufferAccess_onHigh (s : State) (tick : Tick) : BufferAccess s (.high tick) (onHigh tick s) := by
  rcases onHigh_cases s tick with
    ⟨-, h⟩ | ⟨l, -, ⟨-, h⟩ | ⟨-, ⟨hc, h⟩ | ⟨-, -, h⟩ | ⟨-, -, h⟩ | ⟨-, h⟩⟩⟩ <;> rw [h]
  · exact .keep rfl
  · exact .keep rfl
  · exact .shift _ hc rfl
  · exact .clear rfl
  · exact .keep rfl
  · exact .clear rfl

theorem bufferAccess_effect (i : Instr) (s : State) : BufferAccess s i (effect i s) := by
  rcases effect_cases i s with
    ⟨-, -, he⟩ | ⟨-, tick, rfl, he⟩ | ⟨-, tick, rfl, he⟩ | ⟨-, tick, rfl, he⟩ | ⟨-, ⟨b, -, he⟩ | he⟩ <;> rw [he]
  · exact .keep rfl
  · exact bufferAccess_onLow s tick
  · exact bufferAccess_onHigh s tick
  · exact .clear rfl
  · exact .clear rfl
  · exact .keep rfl

@[simp] theorem shiftLast_nil (bit : Bool) : shiftLast bit [] = [] := rfl

@[simp] theorem length_shiftLast (bit : Bool) (bs : List Byte) : (shiftLast bit bs).length = bs.length := by
  rcases List.eq_nil_or_concat' bs with rfl | ⟨done, b, rfl⟩ <;> simp

/-! ### Outputs -/

@[simp] theorem watchdogCommands_nil : watchdogCommands [] = [] := rfl
@[simp] theorem watchdogCommands_wdDisarm (o : List Output) :
    watchdogCommands (.wdDisarm :: o) = .wdDisarm :: watchdogCommands o := rfl
@[simp] theorem watchdogCommands_wdArm (ms : Nat) (o : List Output) :
    watchdogCommands (.wdArm ms :: o) = .wdArm ms :: watchdogCommands o := rfl
@[simp] theorem watchdogCommands_driverUnavailable (o : List Output) :
    watchdogCommands (.driverUnavailable :: o) = watchdogCommands o := rfl

theorem watchdogCommands_onLow (s : State) (tick : Tick) :
    watchdogCommands (sentBetween s (onLow tick s)) = [.wdDisarm] := by
  rcases onLow_cases s tick with ⟨h, -⟩ | ⟨-, -, ⟨-, h⟩ | ⟨-, -, -, ⟨-, h⟩ | ⟨-, h⟩⟩⟩ <;> simp [h]

theorem watchdogCommands_onHigh (s : State) (tick : Tick) :
    watchdogCommands (sentBetween s (onHigh tick s)) = [.wdDisarm] ∨
    watchdogCommands (sentBetween s (onHigh tick s)) = [.wdDisarm, .wdArm s.params.watchdogMs] := by
  rcases onHigh_cases s tick with
    ⟨-, h⟩ | ⟨l, -, ⟨-, h⟩ | ⟨-, ⟨-, h⟩ | ⟨-, -, h⟩ | ⟨-, -, h⟩ | ⟨-, h⟩⟩⟩ <;> simp [h]

/-- Two of the five flushes have the status OK. -/
theorem flushes_ok_iff {s t : State} {i : Instr} (hs : s.dec.started = true) (ht : effect i s = t) :
    Flushes s i .ok t ↔
      (∃ tick h, i = .low tick ∧ s.dec.lastHigh = some h ∧ s.params.packetStartTicks < (tickDiff h tick).toNat) ∨
      (∃ tick, i = .timeout tick) := by
  constructor
  · intro hf
    cases hf with
    | @packetStart tick h hh gap => exact .inl ⟨tick, h, rfl, hh, gap⟩
    | timeout tick => exact .inr ⟨tick, rfl⟩
  · rintro (⟨tick, h, rfl, hh, gap⟩ | ⟨tick, rfl⟩)
    · exact (Flushes.packetStart hh gap).of_effect hs ht
    · exact (Flushes.timeout tick).of_effect hs ht

theorem emitted_of_not_event {i : Instr} {s : State} (hi : i.isEvent = false) : emitted s (effect i s) = [] := by
  rcases effect_cases i s with
    ⟨-, hev, -⟩ | ⟨-, tick, rfl, -⟩ | ⟨-, tick, rfl, -⟩ | ⟨-, tick, rfl, -⟩ | ⟨-, ⟨b, -, he⟩ | he⟩
  · simp [hi] at hev
  · cases hi
  · cases hi
  · cases hi
  · simp [he, emitted]
  · simp [he, emitted]

/-- Nine bits are there only while bits are received (R24 items 2 and 3). -/
theorem State.Inv.decodingBits_of_nine_bits {s : State} (hinv : s.Inv) (hc : s.dec.bitCount = 9) :
    s.dec.phase = .decodingBits := by
  obtain ⟨⟨-, hidle, hawait, -⟩, -⟩ := hinv
  cases hp : s.dec.phase with
  | idle => simp [(hidle hp).1] at hc
  | awaitingByteCalibration => simp [(hawait hp).1] at hc
  | decodingBits => rfl

/-! ### START, STOP, RESET and TIMEOUT -/

theorem effect_start_with_driver {s : State} (hd : s.params.driverAvailable = true) :
    effect .start s = restart true s := by
  simp [effect, hd]

theorem effect_start_without_driver {s : State} (hd : s.params.driverAvailable = false) :
    effect .start s = send .driverUnavailable s := by
  simp [effect, hd]

/-- A START that follows another finds nothing to change (R45). -/
theorem effect_start_start_dec (s : State) : (effect .start (effect .start s)).dec = (effect .start s).dec := by
  have hp := (effect_params_inputs .start s).1
  cases hd : s.params.driverAvailable with
  | true =>
    rw [effect_start_with_driver (hp ▸ hd), effect_start_with_driver hd]
    rfl
  | false => rw [effect_start_without_driver (hp ▸ hd), send_dec]

/-- A TIMEOUT that follows another finds no frame in progress and nothing to change (R45). -/
theorem effect_timeout_timeout (s : State) (tick : Tick) :
    effect (.timeout tick) (effect (.timeout tick) s) = effect (.timeout tick) s := by
  cases hs : s.dec.started with
  | false => rw [effect_of_stopped hs rfl, effect_of_stopped hs rfl]
  | true =>
    rw [effect_timeout_of_started hs, effect_timeout_of_started (by simp [onTimeout_eq, hs]),
      onTimeout_eq (onTimeout s)]
    exact State.eq_of_parts rfl rfl rfl (by simp [onTimeout_eq, pendingFrame])

/-! ### The statements -/

/-- Settles O13: the equation of the LOW handler for each kind of gap. -/
theorem lowEventResult : Obligations.LowEventResult := by
  intro s tick hs
  simp only [exec_eq_effect, effect_low_of_started hs]
  refine ⟨fun hh => ?_, fun h hh => ⟨fun hps => ?_, fun hps hbs hp hc => ?_, fun hps hbs hp hc => ?_, fun hps hn => ?_⟩⟩
  · rw [onLow_no_high hh]; rfl
  · rw [onLow_packet_start hh hps]; rfl
  · rw [onLow_byte_start hh hps hbs hp hc]; rfl
  · rw [onLow_bitCount_error hh hps hbs hp hc]; rfl
  · rw [onLow_no_gap hh hps hn]; rfl

/-- Settles O14: the equation of the HIGH handler for each kind of pulse; a valid calibration width decides the bit. -/
theorem highEventResult : Obligations.HighEventResult := by
  intro s tick hs
  simp only [exec_eq_effect, effect_high_of_started hs]
  refine ⟨fun hn => ?_, fun l hl => ⟨fun hp => ?_, fun c done b hp hcal hb hc hw => ?_,
    fun c done b hp hcal hb hc hw => ?_, fun c hp hcal hc hpar => ?_, fun c hp hcal hc hpar => ?_, fun hp hc => ?_⟩⟩
  · rw [onHigh_tick_only hn]; rfl
  · rw [onHigh_calibrate hl hp]; rfl
  · simp [onHigh_data_bit hl hp hc, classifyBit_of_calib _ hcal, highDataBit, hb, hw]
  · simp [onHigh_data_bit hl hp hc, classifyBit_of_calib _ hcal, highDataBit, hb, Nat.not_lt.mpr hw]
  · rw [onHigh_ninth_bit hl hp hc, classifyBit_of_calib _ hcal, if_neg (by simp [hpar])]; rfl
  · rw [onHigh_ninth_bit hl hp hc, classifyBit_of_calib _ hcal, if_pos (by simpa using hpar)]; rfl
  · rw [onHigh_tenth_bit hl hp hc]; rfl

/-- Settles O19: event by event. -/
theorem registersWrittenAsTabled : Obligations.RegistersWrittenAsTabled := by
  intro i s t hexec
  obtain rfl := exec_next_iff.mp hexec
  obtain ⟨hparams, hinputs⟩ := effect_params_inputs i s
  refine ⟨hparams, hinputs, ?_, ?_, ?_⟩
  · rintro tick rfl; exact effect_low_keeps s tick
  · rintro tick rfl; exact effect_high_keeps s tick
  · rintro tick rfl; exact effect_timeout_keeps s tick

/-- Settles O20: the five accesses; a shift into an empty buffer writes nothing. -/
theorem bufferAccesses : Obligations.BufferAccesses := by
  intro i s t hexec
  obtain rfl := exec_next_iff.mp hexec
  cases bufferAccess_effect i s with
  | keep hb => exact .inl hb
  | beginByte _ _ hb => exact .inr (.inl ⟨⟨_, rfl⟩, hb⟩)
  | beginFrame hb he => exact .inr (.inr (.inl ⟨⟨_, rfl⟩, hb, he⟩))
  | shift bit hc hb =>
    rcases List.eq_nil_or_concat' s.dec.bytes with hnil | ⟨done, b, hlast⟩
    · exact .inl (by rw [hb, hnil, shiftLast_nil])
    · refine .inr (.inr (.inr (.inl ⟨⟨_, rfl⟩, hc, done, b, hlast, ?_⟩)))
      cases bit <;> simp [hb, hlast]
  | clear hb =>
    refine .inr (.inr (.inr (.inr ⟨hb, fun hne => ?_⟩)))
    obtain ⟨st, he, -⟩ := (emitted_effect i s).resolve_left hne
    exact ⟨st, he⟩

/-- Settles O21: outputs are appended, and a Frame comes by one flush. -/
theorem atMostOneFramePerOperation : Obligations.AtMostOneFramePerOperation := by
  intro i s t hexec
  obtain rfl := exec_next_iff.mp hexec
  exact ⟨effect_out i s, emitted_effect i s⟩

/-- Settles O22: LOW and the control operations disarm, HIGH disarms and may arm, TIMEOUT sends no command. -/
theorem watchdogCommandsPerOperation : Obligations.WatchdogCommandsPerOperation := by
  intro i s t hexec
  obtain rfl := exec_next_iff.mp hexec
  rcases effect_cases i s with
    ⟨-, -, he⟩ | ⟨-, tick, -, he⟩ | ⟨-, tick, -, he⟩ | ⟨-, tick, -, he⟩ | ⟨-, ⟨b, -, he⟩ | he⟩ <;> rw [he]
  · exact .inl (by simp)
  · exact .inr (.inl (watchdogCommands_onLow s tick))
  · exact .inr (watchdogCommands_onHigh s tick)
  · exact .inl (by simp)
  · exact .inr (.inl (by simp))
  · exact .inl (by simp)

/-- Settles O26: two of the five flushes have this status, and a frame is in progress exactly if the buffer is not empty. -/
theorem okFrameCauses : Obligations.OkFrameCauses := by
  intro i s t bs hinv hexec
  have ht := exec_next_iff.mp hexec
  rw [mem_emitted_iff ht, ne_eq, ← hinv.idle_iff]
  constructor
  · rintro ⟨hbs, hp, hs, hf⟩
    exact ⟨hbs, hs, hp, (flushes_ok_iff hs ht).mp hf⟩
  · rintro ⟨hbs, hs, hp, hcause⟩
    exact ⟨hbs, hp, hs, (flushes_ok_iff hs ht).mpr hcause⟩

/-- Settles O28: the only access that makes a non-empty buffer longer is that of a byte-start gap behind nine bits. -/
theorem byteClosedAtNineBitsOnly : Obligations.ByteClosedAtNineBitsOnly := by
  intro i s t hinv hexec hne hlen
  obtain rfl := exec_next_iff.mp hexec
  have hpos : 0 < s.dec.bytes.length := List.length_pos_iff.mpr hne
  cases bufferAccess_effect i s with
  | keep hb => simp [hb] at hlen
  | beginByte _ hc hb => exact ⟨hb, hinv.decodingBits_of_nine_bits hc, hc, hinv.parity_of_nine_bits hc⟩
  | beginFrame hb _ => simp only [hb, List.length_singleton] at hlen; omega
  | shift bit _ hb => simp [hb] at hlen
  | clear hb => simp [hb] at hlen

/-- Settles O30: each leaves a decoder that it would leave again, with no frame in progress. -/
theorem idempotentOperations : Obligations.IdempotentOperations := by
  intro i s t u hi hst htu
  obtain rfl := exec_next_iff.mp hst
  obtain rfl := exec_next_iff.mp htu
  rcases hi with rfl | rfl | rfl | ⟨tick, rfl⟩
  · exact ⟨effect_start_start_dec s, emitted_of_not_event rfl⟩
  · exact ⟨rfl, emitted_of_not_event rfl⟩
  · exact ⟨rfl, emitted_of_not_event rfl⟩
  · simp [effect_timeout_timeout]

/-- Settles O1: by evaluation, and by the three branches of the construction. -/
theorem resetAndConstruction : Obligations.ResetAndConstruction := by
  refine ⟨⟨rfl, rfl, rfl, rfl, rfl, rfl, rfl, rfl, rfl⟩, fun p => ⟨fun hw hd => ?_, fun hw hd => ?_, fun hw => ?_⟩⟩
  · exact ⟨{ State.reset with params := p }, by simp [construct, hw, hd], rfl, rfl⟩
  · simp [construct, hw, hd]
  · simp [construct, hw]

/-- Settles O10: the next state is that of `effect`. -/
theorem everyOperationCompletes : Obligations.EveryOperationCompletes := fun i s => ⟨effect i s, exec_eq_effect i s⟩

/-- Settles O12: the subtraction of words is that of numbers modulo `2^32`. -/
theorem tickDiffWraps : Obligations.TickDiffWraps := by
  refine ⟨fun t0 t1 => ?_, by decide, by decide⟩
  have := t0.isLt
  have := t1.isLt
  rw [tickDiff, BitVec.toNat_sub]
  omega

/-- Settles O16: with a driver START restarts, without one it only reports the failure. -/
theorem startResult : Obligations.StartResult := by
  refine fun s => ⟨fun hd => ?_, fun hd => ?_⟩
  · rw [exec_eq_effect, effect_start_with_driver hd]; rfl
  · rw [exec_eq_effect, effect_start_without_driver hd]; rfl

/-- Settles O17: both restart the decoder as stopped. -/
theorem stopAndResetResult : Obligations.StopAndResetResult :=
  fun s => ⟨exec_next_iff.mpr (restart_eq false s), exec_next_iff.mpr (restart_eq false s)⟩

/-- Settles O18: no event reaches its handler while stopped. -/
theorem eventsWhileStoppedIgnored : Obligations.EventsWhileStoppedIgnored := by
  intro s tick hs
  exact ⟨exec_next_iff.mpr (effect_of_stopped hs rfl), exec_next_iff.mpr (effect_of_stopped hs rfl),
    exec_next_iff.mpr (effect_of_stopped hs rfl)⟩

/-- Settles O29: no control operation flushes, and no operation writes a parameter. -/
theorem commandsEmitNoFrame : Obligations.CommandsEmitNoFrame := by
  intro i s t hi hexec
  obtain rfl := exec_next_iff.mp hexec
  exact ⟨emitted_of_not_event hi, (effect_params_inputs i s).1⟩

end Sys2Proof.Machine
end

section
/-! SUPPORT. What an operation cannot see (10_state.md section 9, 20_memory.md section 7, R27, R165): a common shift of all
ticks, what was sent before, what waits at the ports. One simulation covers the three. -/

namespace Sys2Proof.Machine

/-- The same state at another origin of the tick counter, behind other outputs and before other inputs. -/
def State.moved (c : Tick) (o : List Output) (ins : List PortInput) (s : State) : State :=
  { State.shift c s with inputs := ins, out := o ++ s.out }

section
variable (c : Tick) (o : List Output) (ins : List PortInput) (s : State)

/-! ### The shared operations commute with the move -/

theorem send_moved (x : Output) : send x (s.moved c o ins) = (send x s).moved c o ins :=
  State.eq_of_parts rfl rfl rfl (List.append_assoc ..)

theorem wdDisarm_moved : wdDisarm (s.moved c o ins) = (wdDisarm s).moved c o ins :=
  State.eq_of_parts rfl rfl rfl (List.append_assoc ..)

theorem wdArm_moved (ms : Nat) : wdArm ms (s.moved c o ins) = (wdArm ms s).moved c o ins :=
  State.eq_of_parts rfl rfl rfl (List.append_assoc ..)

theorem flush_moved (st : Status) : flush st (s.moved c o ins) = (flush st s).moved c o ins := by
  rw [flush_eq, flush_eq]
  exact State.eq_of_parts rfl rfl rfl (List.append_assoc ..)

theorem restart_moved (b : Bool) : restart b (s.moved c o ins) = (restart b s).moved c o ins :=
  State.eq_of_parts rfl rfl rfl (List.append_assoc ..)

theorem onTimeout_moved : onTimeout (s.moved c o ins) = (onTimeout s).moved c o ins := by
  rw [onTimeout_eq, onTimeout_eq]
  exact State.eq_of_parts rfl rfl rfl (List.append_assoc ..)

theorem tickDiff_add_add (t0 t1 : Tick) : tickDiff (t0 + c) (t1 + c) = tickDiff t0 t1 :=
  add_sub_add_right_eq_sub t1 t0 c

theorem highWidth_moved (tick : Tick) : highWidth (s.moved c o ins) (tick + c) = highWidth s tick := by
  cases h : s.dec.lastHigh <;> simp [highWidth, State.moved, State.shift, h, tickDiff_add_add]

theorem lowWidth_moved (tick : Tick) : lowWidth (s.moved c o ins) (tick + c) = lowWidth s tick := by
  cases h : s.dec.lastLow <;> simp [lowWidth, State.moved, State.shift, h, tickDiff_add_add]

/-! ### The handlers -/

theorem syncOnGap_moved (w : Option Tick) : syncOnGap w (s.moved c o ins) = (syncOnGap w s).moved c o ins := by
  cases w with
  | none => rfl
  | some hw =>
    have hps : exceedsPacketStart (s.moved c o ins) hw = exceedsPacketStart s hw := rfl
    have hbs : exceedsByteStart (s.moved c o ins) hw = exceedsByteStart s hw := rfl
    have hp : (s.moved c o ins).dec.phase = s.dec.phase := rfl
    have hc : (s.moved c o ins).dec.bitCount = s.dec.bitCount := rfl
    simp only [syncOnGap, hps, hbs, hp, hc, flush_moved]
    split_ifs <;> rfl

theorem closeByte_moved : closeByte (s.moved c o ins) = (closeByte s).moved c o ins := by
  have hc : (s.moved c o ins).dec.bitCount = s.dec.bitCount := rfl
  have hpar : (s.moved c o ins).dec.parity = s.dec.parity := rfl
  have hprm : (s.moved c o ins).params = s.params := rfl
  simp only [closeByte, hc, hpar, hprm, flush_moved, wdArm_moved]
  split_ifs <;> rfl

theorem takeBit_moved (bit : Bool) : takeBit bit (s.moved c o ins) = (takeBit bit s).moved c o ins := rfl

theorem lowPulse_moved (w : Option Tick) : lowPulse w (s.moved c o ins) = (lowPulse w s).moved c o ins := by
  cases w with
  | none => rfl
  | some lw =>
    have hp : (s.moved c o ins).dec.phase = s.dec.phase := rfl
    have hc : (s.moved c o ins).dec.bitCount = s.dec.bitCount := rfl
    have hbit : classifyBit (s.moved c o ins) lw = classifyBit s lw := rfl
    simp only [lowPulse, hp, hc, hbit, flush_moved, takeBit_moved, closeByte_moved]
    cases s.dec.phase with
    | idle => rfl
    | awaitingByteCalibration => rfl
    | decodingBits => dsimp only; split_ifs <;> rfl

theorem onLow_moved (tick : Tick) : onLow (tick + c) (s.moved c o ins) = (onLow tick s).moved c o ins := by
  rw [onLow, highWidth_moved, wdDisarm_moved, syncOnGap_moved]
  rfl

theorem onHigh_moved (tick : Tick) : onHigh (tick + c) (s.moved c o ins) = (onHigh tick s).moved c o ins := by
  rw [onHigh, lowWidth_moved, wdDisarm_moved, lowPulse_moved]
  rfl

theorem whenStarted_moved {f g : State → State} (h : f (s.moved c o ins) = (g s).moved c o ins) :
    whenStarted f (s.moved c o ins) = (whenStarted g s).moved c o ins := by
  have hs : (s.moved c o ins).dec.started = s.dec.started := rfl
  simp only [whenStarted, hs, h]
  split_ifs <;> rfl

/-- Every operation commutes with the move. -/
theorem effect_moved (i : Instr) : effect (shiftTick c i) (s.moved c o ins) = (effect i s).moved c o ins := by
  cases i with
  | low tick => exact whenStarted_moved c o ins s (onLow_moved c o ins s tick)
  | high tick => exact whenStarted_moved c o ins s (onHigh_moved c o ins s tick)
  | timeout tick => exact whenStarted_moved c o ins s (onTimeout_moved c o ins s)
  | stop => exact restart_moved c o ins s false
  | reset => exact restart_moved c o ins s false
  | start =>
    have hd : (s.moved c o ins).params.driverAvailable = s.params.driverAvailable := rfl
    simp only [shiftTick, effect, hd, restart_moved, send_moved]
    split_ifs <;> rfl

/-! ### The two special cases -/

theorem shift_eq_moved : State.shift c s = s.moved c [] s.inputs := rfl

theorem moved_zero : s.moved 0#32 o ins = { s with out := o ++ s.out, inputs := ins } := by
  simp [State.moved, State.shift]

theorem shiftTick_zero (i : Instr) : shiftTick 0#32 i = i := by cases i <;> simp [shiftTick]

/-- Each operation appends the same outputs whatever was sent before and whatever waits. -/
theorem effect_with_out_inputs (i : Instr) :
    effect i { s with out := o, inputs := ins } =
      { effect i s with out := o ++ sentBetween s (effect i s), inputs := ins } := by
  have key (o' : List Output) (ins' : List PortInput) := effect_moved 0#32 o' ins' { s with out := [] } i
  simp only [shiftTick_zero, moved_zero, List.append_nil] at key
  have hs : effect i s = _ := key s.out s.inputs
  rw [key, sentBetween_of_append (s := s) (congrArg State.out hs), hs]

theorem effect_with_inputs (i : Instr) : effect i { s with inputs := ins } = { effect i s with inputs := ins } := by
  have h := effect_with_out_inputs s.out ins s i
  rwa [← effect_out] at h

/-- The inputs that wait behind a trace play no part in it. -/
theorem effects_with_inputs (is : List Instr) :
    effects is { s with inputs := ins } = { effects is s with inputs := ins } := by
  induction is generalizing s with
  | nil => rfl
  | cons i is ih => rw [effects_cons, effects_cons, effect_with_inputs, ih]

end

/-! ### The statements -/

/-- Settles O33: the move of all ticks by one amount. -/
theorem onlyTickDifferencesMatter : Obligations.OnlyTickDifferencesMatter := by
  intro c i s t hexec
  obtain rfl := exec_next_iff.mp hexec
  rw [exec_next_iff, shift_eq_moved, shift_eq_moved, effect_moved, (effect_params_inputs i s).2]

/-- Settles O34: the move of outputs and inputs. -/
theorem outputsDoNotFeedBack : Obligations.OutputsDoNotFeedBack := by
  intro i s t o ins hexec
  obtain rfl := exec_next_iff.mp hexec
  exact exec_next_iff.mpr (effect_with_out_inputs o ins s i)

end Sys2Proof.Machine
end

section
/-! SUPPORT. Traces and systems (40_common_operations.md section 8, 60_exceptions.md sections 5 and 10): the machine's run of
a trace is its fold, a trace from `Idle` stays there until a packet-start gap, a stopped decoder stays stopped, and an
interleaving runs each unit on its own. -/

namespace Sys2Proof.Machine

/-! ### A trace that waits at the ports -/

/-- A step takes one operation from the waiting trace. -/
theorem step_of_encoded {s : State} {i : Instr} {rest : List PortInput} (hw : s.params.wellFormed = true)
    (hi : s.inputs = encode i :: rest) : step s = .next { effect i s with inputs := rest } := by
  rw [step_of_decode_ok hw hi (decode_encode i), exec_eq_effect, effect_with_inputs]

/-- As many steps as a trace is long run it and leave the inputs behind it waiting. -/
theorem run_encoded_trace {s : State} {is : List Instr} {rest : List PortInput} (hw : s.params.wellFormed = true)
    (hi : s.inputs = is.map encode ++ rest) :
    Host.Core.run Sys2Proof.core is.length s = .next { effects is s with inputs := rest } := by
  induction is generalizing s with
  | nil =>
    obtain rfl : s.inputs = rest := hi
    rfl
  | cons i is ih =>
    have hparams := (effect_params_inputs i s).1
    rw [List.length_cons, core_run_succ_of_next (step_of_encoded hw hi), ih (hparams ▸ hw) rfl, effects_with_inputs]
    rfl

/-! ### From `Idle` (R169, R192) -/

/-- A LOW event that ends a packet-start gap in a started decoder (R101). -/
def PacketStartGap (i : Instr) (s : State) : Prop :=
  ∃ tick h, i = .low tick ∧ s.dec.started = true ∧ s.dec.lastHigh = some h ∧
    s.params.packetStartTicks < (tickDiff h tick).toNat

/-- No other operation leaves `Idle` or emits a Frame there. -/
theorem idle_until_packetStartGap {i : Instr} {s : State} (hinv : s.Inv) (hp : s.dec.phase = .idle) :
    PacketStartGap i s ∨ ((effect i s).dec.phase = .idle ∧ emitted s (effect i s) = []) := by
  have hbytes : s.dec.bytes = [] := hinv.idle_iff.mp hp
  rcases effect_cases i s with
    ⟨-, -, he⟩ | ⟨hs, tick, hi, he⟩ | ⟨hs, tick, hi, he⟩ | ⟨hs, tick, hi, he⟩ | ⟨-, ⟨b, -, he⟩ | he⟩
  · exact .inr (by simp [he, hp])
  · rcases onLow_cases s tick with ⟨h, -⟩ | ⟨g, hh, ⟨gap, -⟩ | ⟨-, -, hne, -⟩⟩
    · rw [he, h]
      exact .inr ⟨hp, by simp [emitted]⟩
    · exact .inl ⟨tick, g, hi, hs, hh, gap⟩
    · exact absurd hp hne
  · rw [he, onHigh_tick_only (.inr hp)]
    exact .inr ⟨hp, by simp [emitted]⟩
  · rw [he]
    exact .inr ⟨rfl, by simp [emitted, hbytes]⟩
  · rw [he]
    exact .inr ⟨rfl, by simp [emitted]⟩
  · rw [he]
    exact .inr ⟨hp, by simp [emitted]⟩

/-- Nor does a trace without such a gap. -/
theorem trace_idle_until_packetStartGap {is : List Instr} {s : State} (hinv : s.Inv) (hp : s.dec.phase = .idle) :
    (∃ before i after, is = before ++ i :: after ∧ PacketStartGap i (effects before s)) ∨
    ((effects is s).dec.phase = .idle ∧ emitted s (effects is s) = []) := by
  induction is generalizing s with
  | nil => exact .inr ⟨hp, emitted_self s⟩
  | cons i is ih =>
    rcases idle_until_packetStartGap (i := i) hinv hp with hgap | ⟨hp', he⟩
    · exact .inl ⟨[], i, is, rfl, hgap⟩
    · rcases ih (hinv.effect i) hp' with ⟨before, j, after, his, hgap⟩ | ⟨hp'', he'⟩
      · exact .inl ⟨i :: before, j, after, by rw [his]; rfl, hgap⟩
      · exact .inr ⟨hp'', by rw [effects_cons, emitted_trans is (effect_out i s), he, he']; rfl⟩

/-! ### After STOP (R49, R138) -/

theorem effects_of_stopped {is : List Instr} {s : State} (hs : s.dec.started = false)
    (hev : ∀ i ∈ is, i.isEvent = true) : effects is s = s := by
  induction is with
  | nil => rfl
  | cons i is ih =>
    rw [effects_cons, effect_of_stopped hs (hev i List.mem_cons_self), ih fun j hj => hev j (List.mem_cons_of_mem i hj)]

theorem effects_stop_events {is : List Instr} (s : State) (hev : ∀ i ∈ is, i.isEvent = true) :
    effects (.stop :: is) s = restart false s := effects_of_stopped rfl hev

/-! ### Systems (R174) -/

/-- A unit after `n` steps of its own: the first `n` operations of its trace are done, the rest wait. -/
def State.ownSteps (is : List Instr) (n : Nat) (s : State) : State :=
  { effects (is.take n) s with inputs := (is.drop n).map encode }

theorem ownSteps_zero {is : List Instr} {s : State} (hi : s.inputs = is.map encode) : s.ownSteps is 0 = s := by
  rw [State.ownSteps, List.drop_zero, ← hi]
  rfl

/-- A step of the unit does its next operation, or waits when there is none left. -/
theorem step_ownSteps {s : State} (hw : s.params.wellFormed = true) (is : List Instr) (n : Nat) :
    step (s.ownSteps is n) = .next (s.ownSteps is (n + 1)) := by
  have hw' : (s.ownSteps is n).params.wellFormed = true := (effects_params_inputs (is.take n) s).1 ▸ hw
  rcases Nat.lt_or_ge n is.length with hn | hn
  · have hi : (s.ownSteps is n).inputs = encode is[n] :: (is.drop (n + 1)).map encode := by
      rw [State.ownSteps, List.drop_eq_getElem_cons hn, List.map_cons]
    rw [step_of_encoded hw' hi, State.ownSteps, State.ownSteps, effect_with_inputs,
      List.take_succ_eq_append_getElem hn, effects_append]
    rfl
  · have hi : (s.ownSteps is n).inputs = [] := by simp [State.ownSteps, List.drop_eq_nil_of_le hn]
    rw [step_of_inputs_nil hw' hi, State.ownSteps, State.ownSteps, List.take_of_length_le hn,
      List.drop_eq_nil_of_le hn, List.take_of_length_le (by omega), List.drop_eq_nil_of_le (by omega)]

/-- The system after `n k` own steps of each unit `k`. -/
def System.ownSteps (sys : System) (traces : List (List Instr)) (n : Nat → Nat) : System :=
  (sys.zip traces).mapIdx fun k u => u.1.ownSteps u.2 (n k)

section
variable {sys : System} {traces : List (List Instr)}

theorem System.length_ownSteps (hlen : traces.length = sys.length) (n : Nat → Nat) :
    (sys.ownSteps traces n).length = sys.length := by
  simp [System.ownSteps, hlen]

theorem System.getElem?_ownSteps {k : Nat} {s : State} {is : List Instr} (hs : sys[k]? = some s)
    (his : traces[k]? = some is) (n : Nat → Nat) : (sys.ownSteps traces n)[k]? = some (s.ownSteps is (n k)) := by
  have hzip : (sys.zip traces)[k]? = some (s, is) := List.getElem?_zip_eq_some.mpr ⟨hs, his⟩
  simp [System.ownSteps, hzip]

/-- Systems with the same units and as many steps of each are equal. -/
theorem System.eq_ownSteps {sys' : System} (hlen : traces.length = sys.length) (hlen' : sys'.length = sys.length)
    (n : Nat → Nat) (h : ∀ (k : Nat) (s : State) (is : List Instr), sys[k]? = some s → traces[k]? = some is →
      sys'[k]? = some (s.ownSteps is (n k))) :
    sys' = sys.ownSteps traces n := by
  refine List.ext_getElem? fun k => ?_
  rcases Nat.lt_or_ge k sys.length with hk | hk
  · have hs := List.getElem?_eq_getElem hk
    have his := List.getElem?_eq_getElem (hlen ▸ hk : k < traces.length)
    rw [h k _ _ hs his, System.getElem?_ownSteps hs his]
  · rw [List.getElem?_eq_none (hlen' ▸ hk), List.getElem?_eq_none (System.length_ownSteps hlen n ▸ hk)]

/-- One more step of unit `k` changes its own place only. -/
theorem System.stepInstance_ownSteps {k : Nat} (hlen : traces.length = sys.length) (hk : k < sys.length)
    (hw : ∀ s ∈ sys, s.params.wellFormed = true) (n : Nat → Nat) :
    (sys.ownSteps traces n).stepInstance k = some (sys.ownSteps traces (Function.update n k (n k + 1))) := by
  have hs := List.getElem?_eq_getElem hk
  have his := List.getElem?_eq_getElem (hlen ▸ hk : k < traces.length)
  have hstep := step_ownSteps (hw _ (List.getElem_mem hk)) traces[k] (n k)
  simp only [System.stepInstance, System.getElem?_ownSteps hs his, hstep, Option.some.injEq]
  refine System.eq_ownSteps hlen (by simp [System.length_ownSteps hlen]) _ fun j s is hj hij => ?_
  rcases eq_or_ne k j with rfl | hne
  · obtain rfl : sys[k] = s := Option.some.inj (hs.symm.trans hj)
    obtain rfl : traces[k] = is := Option.some.inj (his.symm.trans hij)
    simp [System.length_ownSteps hlen, hk]
  · rw [List.getElem?_set_ne hne, Function.update_of_ne hne.symm, System.getElem?_ownSteps hj hij]

/-- A schedule adds to each unit's own steps as many as it names the unit. -/
theorem System.run_ownSteps {schedule : List Nat} (hlen : traces.length = sys.length)
    (hk : ∀ k ∈ schedule, k < sys.length) (hw : ∀ s ∈ sys, s.params.wellFormed = true) (n : Nat → Nat) :
    System.run schedule (sys.ownSteps traces n) = some (sys.ownSteps traces fun k => n k + schedule.count k) := by
  induction schedule generalizing n with
  | nil => rfl
  | cons k ks ih =>
    rw [System.run, System.stepInstance_ownSteps hlen (hk k List.mem_cons_self) hw]
    dsimp only
    rw [ih fun j hj => hk j (List.mem_cons_of_mem k hj)]
    congr 2
    funext j
    rcases eq_or_ne k j with rfl | hne
    · simp; omega
    · simp [Function.update_of_ne hne.symm, List.count_cons_of_ne hne]

end

/-! ### The statements -/

/-- Settles O11: by induction on the trace, each step taking one word. -/
theorem runIsFoldOfTrace : Obligations.RunIsFoldOfTrace := by
  intro is s t hw hexec
  obtain rfl := execTrace_next_iff.mp hexec
  have hrun := run_encoded_trace (s := { s with inputs := is.map encode ++ s.inputs }) (rest := s.inputs) hw rfl
  rw [hrun, effects_with_inputs]
  exact congrArg _ (State.eq_of_parts rfl rfl (effects_params_inputs is s).2.symm rfl)

/-- Settles O35: by induction on the trace, the first operation that leaves `Idle` or emits being such a gap. -/
theorem decodingStartsAtPacketStartOnly : Obligations.DecodingStartsAtPacketStartOnly := by
  intro is s t hinv hp hexec hbusy
  obtain rfl := execTrace_next_iff.mp hexec
  rcases trace_idle_until_packetStartGap (is := is) hinv hp with
    ⟨before, i, after, his, tick, h, rfl, hs, hh, gap⟩ | ⟨hp', he⟩
  · rw [(effects_params_inputs before s).1] at gap
    exact ⟨before, tick, after, _, h, his, execTrace_eq_effects before s, hs, hh, gap⟩
  · exact absurd hbusy (by simp [hp', he])

/-- Settles O36: STOP restarts the decoder as stopped, and the events find it so. -/
theorem stopSilencesEvents : Obligations.StopSilencesEvents := by
  intro s is hev
  rw [execTrace_next_iff, effects_stop_events s hev, restart_eq]
  rfl

/-- Settles O37: a STOP behind the event restarts the decoder and emits nothing, and an event behind a STOP is dropped. -/
theorem eventRacingStop : Obligations.EventRacingStop := by
  intro i s t u v hi ht hu hv
  obtain rfl := exec_next_iff.mp ht
  obtain rfl := execTrace_next_iff.mp hu
  obtain rfl := execTrace_next_iff.mp hv
  rw [effects_stop_events s (by simpa using hi)]
  refine ⟨rfl, rfl, ?_, by simp [emitted]⟩
  rw [effects_cons, emitted_trans [.stop] (effect_out i s), effects_cons, effects_nil,
    emitted_of_not_event (i := .stop) rfl, List.append_nil]

/-- Settles O44: the system is at each moment that of its units' own steps, counted unit by unit. -/
theorem instancesIndependent : Obligations.InstancesIndependent := by
  intro sys traces schedule hlen hk hunits
  have hw : ∀ s ∈ sys, s.params.wellFormed = true := by
    intro s hs
    obtain ⟨k, hks, rfl⟩ := List.getElem_of_mem hs
    exact (hunits k _ _ (List.getElem?_eq_getElem hks) (List.getElem?_eq_getElem (hlen ▸ hks))).1
  have hzero : sys = sys.ownSteps traces fun _ => 0 :=
    System.eq_ownSteps hlen rfl _ fun k s is hs his => by rw [ownSteps_zero (hunits k s is hs his).2, hs]
  refine ⟨sys.ownSteps traces fun k => 0 + schedule.count k, ?_, System.length_ownSteps hlen _, fun k s is hs his => ?_⟩
  · conv_lhs => rw [hzero]
    exact System.run_ownSteps hlen hk hw _
  · refine ⟨_, System.getElem?_ownSteps hs his _, ?_⟩
    rw [execTrace_next_iff, effects_with_inputs, Nat.zero_add]
    rfl

end Sys2Proof.Machine
end

section
/-! SUPPORT. Reception (20_memory.md section 2, 30_encoding.md section 9, R41, R70): what a started decoder makes of the pulses
of a byte and of a packet, from any widths that fit. -/

namespace Sys2Proof.Machine

/-! ### Bits and bytes -/

/-- The byte that bits shifted in one after another give (R113). -/
def byteOf (bits : List Bool) : Byte := bits.foldl shiftBit 0x00#8

@[simp] theorem byteOf_append (bits : List Bool) (bit : Bool) :
    byteOf (bits ++ [bit]) = shiftBit (byteOf bits) bit := by
  simp [byteOf]

/-- Shifting in the next lower bit of a byte undoes one place of a shift to the right. -/
theorem shiftBit_ushiftRight (b : Byte) (n : Nat) : shiftBit (b >>> (n + 1)) (b.getLsbD n) = b >>> n := by
  have hhalf : b.toNat >>> (n + 1) = b.toNat >>> n / 2 := by
    rw [Nat.shiftRight_succ]
  have hle : b.toNat >>> n ≤ b.toNat := Nat.shiftRight_le b.toNat n
  have hbit : (b.getLsbD n).toNat = b.toNat >>> n % 2 := by
    rw [BitVec.getLsbD, Nat.toNat_testBit, Nat.shiftRight_eq_div_pow]
  have hb := b.isLt
  apply BitVec.eq_of_toNat_eq
  rw [shiftBit_toNat (by rw [BitVec.toNat_ushiftRight, hhalf]; omega), BitVec.toNat_ushiftRight,
    BitVec.toNat_ushiftRight, hhalf, hbit]
  omega

theorem take_succ_dataBits (b : Byte) {k : Nat} (hk : k < 8) :
    (dataBits b).take (k + 1) = (dataBits b).take k ++ [b.getLsbD (7 - k)] := by
  interval_cases k <;> rfl

/-- The first `k` bits of a byte are its upper places, right-aligned (R41). -/
theorem byteOf_take_dataBits (b : Byte) {k : Nat} (hk : k ≤ 8) : byteOf ((dataBits b).take k) = b >>> (8 - k) := by
  induction k with
  | zero => simp [byteOf, BitVec.ushiftRight_eq_zero]
  | succ k ih =>
    rw [take_succ_dataBits b hk, byteOf_append, ih (by omega), show 8 - k = 7 - k + 1 by omega, shiftBit_ushiftRight,
      show 8 - (k + 1) = 7 - k by omega]

theorem byteOf_dataBits (b : Byte) : byteOf (dataBits b) = b := by
  simpa [dataBits] using byteOf_take_dataBits b (k := 8) le_rfl

theorem length_dataBits (b : Byte) : (dataBits b).length = 8 := rfl

theorem parityOf_even (b : Byte) : parityOf (dataBits b ++ [evenParityBit b]) = false := by
  simp [parityOf_append, evenParityBit]

theorem parityOf_odd {b : Byte} {par : Bool} (h : par ≠ evenParityBit b) : parityOf (dataBits b ++ [par]) = true := by
  rw [parityOf_append, ← evenParityBit]
  simpa [bne_iff_ne] using h.symm

/-! ### Widths -/

theorem tickDiff_later_self {t : Tick} {n : Nat} (hn : n < 2 ^ 32) : (tickDiff t (later t n)).toNat = n := by
  simpa [later] using tickDiff_later (t := t) (Nat.zero_le n) (by simpa using hn)

theorem tickDiff_later_add (t : Tick) (m n : Nat) : tickDiff (later t m) (later t (m + n)) = BitVec.ofNat 32 n := by
  simp [tickDiff, later, BitVec.ofNat_add]

/-- A tick is as many ticks later as the width says. -/
theorem later_tickDiff (t0 t1 : Tick) : later t0 (tickDiff t0 t1).toNat = t1 := by
  rw [later, tickDiff, BitVec.ofNat_toNat, BitVec.setWidth_eq, add_sub_cancel]

theorem Params.bounds_of_wellFormed {prm : Params} (h : prm.wellFormed = true) :
    prm.byteStartTicks < prm.packetStartTicks ∧ prm.packetStartTicks < 2 ^ 32 := by
  simp only [Params.wellFormed, Bool.and_eq_true, decide_eq_true_eq] at h
  exact h.1

/-- The bit that a pulse carries behind a calibration pulse of width `c` (R112). -/
def Pulse.bit (c : Nat) (p : Pulse) : Bool := decide (p.low < c)

/-- A pulse inside a byte: the high period before it begins nothing, and its width does not wrap. -/
def Pulse.InByte (prm : Params) (p : Pulse) : Prop := p.high ≤ prm.byteStartTicks ∧ p.low < 2 ^ 32

/-! ### Traces that emit nothing -/

/-- The trace emits no Frame and leaves a decoder with the property. -/
def RunsQuietly (is : List Instr) (s : State) (P : Decoder → Prop) : Prop :=
  emitted s (effects is s) = [] ∧ P (effects is s).dec

section
variable {a b : List Instr} {s : State} {P Q : Decoder → Prop}

/-- What a trace emits behind a quiet one is all that both emit. -/
theorem RunsQuietly.emitted_append (h : RunsQuietly a s P) :
    emitted s (effects (a ++ b) s) = emitted (effects a s) (effects b (effects a s)) := by
  rw [effects_append, emitted_trans b (effects_out a s), h.1, List.nil_append]

theorem RunsQuietly.append (h : RunsQuietly a s P) (h' : RunsQuietly b (effects a s) Q) : RunsQuietly (a ++ b) s Q := by
  refine ⟨h.emitted_append.trans h'.1, ?_⟩
  rw [effects_append]
  exact h'.2

end

/-- A run of pulses is its first pulse and the run behind it. -/
theorem pulseEvents_cons (h : Tick) (p : Pulse) (ps : List Pulse) :
    pulseEvents h (p :: ps) = pulseEvents h [p] ++ pulseEvents (later h (p.high + p.low)) ps := rfl

/-! ### The decoder inside a byte and behind it -/

/-- The decoder has received `bits` of the active byte behind a calibration pulse of width `c` and a HIGH event at `h`; `odd`
is the parity it had at the byte's first bit. -/
structure Receiving (h : Tick) (c : Nat) (done : List Byte) (odd : Bool) (bits : List Bool) (d : Decoder) : Prop where
  started : d.started = true
  phase : d.phase = .decodingBits
  bytes : d.bytes = done ++ [byteOf bits]
  bitCount : d.bitCount = bits.length
  parity : d.parity = (odd ^^ parityOf bits)
  calib : d.calib = some (BitVec.ofNat 32 c)
  lastHigh : d.lastHigh = some h

/-- The decoder has received these bytes, the last with nine bits of even parity, and a HIGH event at `h`. -/
structure BytesComplete (h : Tick) (bytes : List Byte) (d : Decoder) : Prop where
  started : d.started = true
  phase : d.phase = .decodingBits
  bytes : d.bytes = bytes
  bitCount : d.bitCount = 9
  lastHigh : d.lastHigh = some h
  armed : d.wdArmed = true

section
variable {prm : Params} {s : State} {h : Tick} {c : Nat} {done : List Byte} {odd : Bool} {bits : List Bool} {p : Pulse}

/-- A LOW event inside a byte only records its tick. -/
theorem Receiving.effect_low (hr : Receiving h c done odd bits s.dec) (hw : prm.wellFormed = true)
    (hprm : s.params = prm) (hp : p.InByte prm) :
    effect (.low (later h p.high)) s = lowTickOnly (later h p.high) s := by
  subst hprm
  obtain ⟨hbp, hp32⟩ := Params.bounds_of_wellFormed hw
  obtain ⟨hhigh, -⟩ := hp
  have hwidth : (tickDiff h (later h p.high)).toNat = p.high := tickDiff_later_self (by omega)
  rw [effect_low_of_started hr.started, onLow_no_gap hr.lastHigh (by omega) (.inl (by omega))]

/-- The bit of a pulse, as the HIGH event at its end classifies it. -/
theorem Receiving.classifyBit_eq (hr : Receiving h c done odd bits s.dec) (hc : c < 2 ^ 32) (hp : p.InByte prm) :
    classifyBit s (tickDiff (later h p.high) (later h (p.high + p.low))) = p.bit c := by
  rw [classifyBit_of_calib _ hr.calib, tickDiff_later_add, BitVec.toNat_ofNat, BitVec.toNat_ofNat,
    Nat.mod_eq_of_lt hc, Nat.mod_eq_of_lt hp.2, Pulse.bit]

theorem Receiving.lowTickOnly (hr : Receiving h c done odd bits s.dec) (tick : Tick) :
    Receiving h c done odd bits (lowTickOnly tick s).dec := { hr with }

/-- One of the first eight pulses is shifted in and counted. -/
theorem Receiving.data_pulse (hr : Receiving h c done odd bits s.dec) (hw : prm.wellFormed = true)
    (hprm : s.params = prm) (hc : c < 2 ^ 32) (hp : p.InByte prm) (hlen : bits.length < 8) :
    RunsQuietly (pulseEvents h [p]) s
      (Receiving (later h (p.high + p.low)) c done odd (bits ++ [p.bit c])) := by
  have hr' := hr.lowTickOnly (later h p.high)
  have hrun : effects (pulseEvents h [p]) s =
      highDataBit (p.bit c) (later h (p.high + p.low)) (Machine.lowTickOnly (later h p.high) s) := by
    rw [pulseEvents, pulseEvents, effects_cons, effects_cons, effects_nil, hr.effect_low hw hprm hp,
      effect_high_of_started hr'.started, onHigh_data_bit rfl hr'.phase (by rwa [hr'.bitCount]),
      hr'.classifyBit_eq hc hp]
  rw [RunsQuietly, hrun]
  refine ⟨emitted_of_append (o := [.wdDisarm, .wdDisarm]) (by simp [highDataBit, Machine.lowTickOnly]), ?_⟩
  exact
    { started := hr.started
      phase := hr.phase
      bytes := by simp [highDataBit, hr'.bytes]
      bitCount := by simp [highDataBit, hr'.bitCount]
      parity := by simp [highDataBit, hr'.parity, parityOf_append]
      calib := hr.calib
      lastHigh := rfl }

/-- Up to eight pulses are received as their bits. -/
theorem Receiving.data_pulses {ps : List Pulse} (hr : Receiving h c done odd bits s.dec) (hw : prm.wellFormed = true)
    (hprm : s.params = prm) (hc : c < 2 ^ 32) (hps : ∀ p ∈ ps, p.InByte prm) (hlen : bits.length + ps.length ≤ 8) :
    RunsQuietly (pulseEvents h ps) s (Receiving (pulsesEnd h ps) c done odd (bits ++ ps.map (Pulse.bit c))) := by
  induction ps generalizing s h bits with
  | nil => exact ⟨emitted_self s, by simpa [pulseEvents, pulsesEnd] using hr⟩
  | cons p ps ih =>
    rw [List.length_cons] at hlen
    have hfirst := hr.data_pulse hw hprm hc (hps p List.mem_cons_self) (by omega)
    have hrest := ih hfirst.2 ((effects_params_inputs _ _).1.trans hprm)
      (fun q hq => hps q (List.mem_cons_of_mem p hq)) (by simp; omega)
    rw [List.append_assoc] at hrest
    exact hfirst.append hrest

/-- The ninth pulse ends the byte: it is valid or a ParityError (R115). -/
theorem Receiving.effects_ninth_pulse (hr : Receiving h c done odd bits s.dec) (hw : prm.wellFormed = true)
    (hprm : s.params = prm) (hc : c < 2 ^ 32) (hp : p.InByte prm) (hlen : bits.length = 8) :
    effects (pulseEvents h [p]) s =
      if (odd ^^ parityOf (bits ++ [p.bit c])) = true then
        highError .parityError (later h (p.high + p.low)) (Machine.lowTickOnly (later h p.high) s)
      else highValidByte (later h (p.high + p.low)) (Machine.lowTickOnly (later h p.high) s) := by
  have hr' := hr.lowTickOnly (later h p.high)
  rw [pulseEvents, pulseEvents, effects_cons, effects_cons, effects_nil, hr.effect_low hw hprm hp,
    effect_high_of_started hr'.started, onHigh_ninth_bit rfl hr'.phase (hr'.bitCount.trans hlen),
    hr'.classifyBit_eq hc hp, hr'.parity, parityOf_append, Bool.xor_assoc]

theorem Receiving.ninth_pulse_even (hr : Receiving h c done odd bits s.dec) (hw : prm.wellFormed = true)
    (hprm : s.params = prm) (hc : c < 2 ^ 32) (hp : p.InByte prm) (hlen : bits.length = 8)
    (heven : (odd ^^ parityOf (bits ++ [p.bit c])) = false) :
    RunsQuietly (pulseEvents h [p]) s (BytesComplete (later h (p.high + p.low)) (done ++ [byteOf bits])) := by
  rw [RunsQuietly, hr.effects_ninth_pulse hw hprm hc hp hlen, if_neg (by simp [heven])]
  refine ⟨emitted_of_append (o := [.wdDisarm, .wdDisarm, .wdArm s.params.watchdogMs])
    (by simp [highValidByte, Machine.lowTickOnly]), ?_⟩
  exact
    { started := hr.started
      phase := hr.phase
      bytes := hr.bytes
      bitCount := rfl
      lastHigh := rfl
      armed := rfl }

/-- What is left of a frame that ended in a ParityError: the Frame with these bytes, and a complete run. -/
def EndsInParityError (is : List Instr) (s : State) (bytes : List Byte) : Prop :=
  emitted s (effects is s) = [⟨bytes, .parityError⟩] ∧ (effects is s).dec.bytes = [] ∧ complete (effects is s) = true

theorem pendingFrame_lowTickOnly (st : Status) (tick : Tick) (s : State) :
    pendingFrame (Machine.lowTickOnly tick s) st = pendingFrame s st := rfl

theorem Receiving.ninth_pulse_odd (hr : Receiving h c done odd bits s.dec) (hw : prm.wellFormed = true)
    (hprm : s.params = prm) (hc : c < 2 ^ 32) (hp : p.InByte prm) (hlen : bits.length = 8)
    (hodd : (odd ^^ parityOf (bits ++ [p.bit c])) = true) :
    EndsInParityError (pulseEvents h [p]) s (done ++ [byteOf bits]) := by
  rw [EndsInParityError, hr.effects_ninth_pulse hw hprm hc hp hlen, if_pos hodd]
  refine ⟨?_, rfl, rfl⟩
  rw [emitted_of_append (o := [.wdDisarm, .wdDisarm] ++ pendingFrame s .parityError)
    (by simp only [highError, pendingFrame_lowTickOnly]; simp [Machine.lowTickOnly])]
  simp [hr.bytes]

end

/-! ### A byte -/

section
variable {prm : Params} {s : State} {h : Tick} {c : Nat} {done : List Byte} {odd : Bool} {data : List Bool} {par : Bool}
  {ps : List Pulse}

/-- Nine pulses are eight and a last one. -/
theorem exists_ninth_pulse (hbits : ps.map (Pulse.bit c) = data ++ [par]) :
    ∃ qs q, ps = qs ++ [q] ∧ qs.map (Pulse.bit c) = data ∧ q.bit c = par := by
  obtain ⟨qs, rs, rfl, hqs, hrs⟩ := List.map_eq_append_iff.mp hbits
  obtain ⟨q, rfl, hq⟩ := List.map_eq_singleton_iff.mp hrs
  exact ⟨qs, q, rfl, hqs, hq⟩

/-- Nine pulses whose bits have even parity complete the byte. -/
theorem Receiving.nine_pulses_even (hr : Receiving h c done odd [] s.dec) (hw : prm.wellFormed = true)
    (hprm : s.params = prm) (hc : c < 2 ^ 32) (hps : ∀ p ∈ ps, p.InByte prm)
    (hbits : ps.map (Pulse.bit c) = data ++ [par]) (hlen : data.length = 8)
    (heven : (odd ^^ parityOf (data ++ [par])) = false) :
    RunsQuietly (pulseEvents h ps) s (BytesComplete (pulsesEnd h ps) (done ++ [byteOf data])) := by
  obtain ⟨qs, q, rfl, rfl, rfl⟩ := exists_ninth_pulse hbits
  rw [List.length_map] at hlen
  have hdata := hr.data_pulses (ps := qs) hw hprm hc (fun p hp => hps p (by simp [hp])) (by simp [hlen])
  rw [pulseEvents_append, pulsesEnd_append]
  exact hdata.append (hdata.2.ninth_pulse_even hw ((effects_params_inputs _ _).1.trans hprm) hc (hps q (by simp))
    (by simp [hlen]) heven)

/-- Nine pulses whose bits have odd parity end the frame. -/
theorem Receiving.nine_pulses_odd (hr : Receiving h c done odd [] s.dec) (hw : prm.wellFormed = true)
    (hprm : s.params = prm) (hc : c < 2 ^ 32) (hps : ∀ p ∈ ps, p.InByte prm)
    (hbits : ps.map (Pulse.bit c) = data ++ [par]) (hlen : data.length = 8)
    (hodd : (odd ^^ parityOf (data ++ [par])) = true) :
    EndsInParityError (pulseEvents h ps) s (done ++ [byteOf data]) := by
  obtain ⟨qs, q, rfl, rfl, rfl⟩ := exists_ninth_pulse hbits
  rw [List.length_map] at hlen
  have hdata := hr.data_pulses (ps := qs) hw hprm hc (fun p hp => hps p (by simp [hp])) (by simp [hlen])
  have hlast := hdata.2.ninth_pulse_odd hw ((effects_params_inputs _ _).1.trans hprm) hc (hps q (by simp))
    (by simp [hlen]) hodd
  rw [pulseEvents_append, EndsInParityError, hdata.emitted_append, effects_append]
  exact hlast

end

/-! ### The start of a byte -/

section
variable {s : State} {h : Tick} {p : Pulse} {done : List Byte}

/-- The calibration pulse behind the start of a byte (R111). -/
theorem receiving_of_calibration {l tick : Tick} (hs : s.dec.started = true)
    (hp : s.dec.phase = .awaitingByteCalibration) (hb : s.dec.bytes = done ++ [0x00#8]) (hcount : s.dec.bitCount = 0)
    (hpar : s.dec.parity = false) (hl : s.dec.lastLow = some l) {c : Nat} (hc : tickDiff l tick = BitVec.ofNat 32 c) :
    RunsQuietly [.high tick] s (Receiving tick c done false []) := by
  rw [RunsQuietly, effects_cons, effects_nil, effect_high_of_started hs, onHigh_calibrate hl hp, hc]
  exact ⟨by simp [emitted], ⟨hs, rfl, hb, hcount, hpar, rfl, rfl⟩⟩

/-- A packet-start gap from `Idle` and a calibration pulse begin the first byte. -/
theorem receiving_of_packetStart (hinv : s.Inv) (hs : s.dec.started = true) (hp : s.dec.phase = .idle)
    (hh : s.dec.lastHigh = some h) (hgap : s.params.packetStartTicks < p.high) (hhigh : p.high < 2 ^ 32) :
    RunsQuietly (pulseEvents h [p]) s (Receiving (later h (p.high + p.low)) p.low [] false []) := by
  have hbytes : s.dec.bytes = [] := hinv.idle_iff.mp hp
  have hlow : effects [.low (later h p.high)] s = lowPacketStart (later h p.high) s := by
    rw [effects_cons, effects_nil, effect_low_of_started hs,
      onLow_packet_start hh (by rwa [tickDiff_later_self hhigh])]
  have hquiet : RunsQuietly [.low (later h p.high)] s fun _ => True := by
    rw [RunsQuietly, hlow]
    exact ⟨by simp [emitted, hbytes], trivial⟩
  refine hquiet.append ?_
  rw [hlow]
  exact receiving_of_calibration (s := lowPacketStart (later h p.high) s) (done := []) hs rfl rfl rfl rfl rfl
    (tickDiff_later_add h p.high p.low)

/-- A byte-start gap behind a complete byte and a calibration pulse begin the next byte. -/
theorem BytesComplete.receiving_of_byteStart (hr : BytesComplete h done s.dec) (hw : s.params.wellFormed = true)
    (hgap : s.params.byteStartTicks < p.high) (hhigh : p.high ≤ s.params.packetStartTicks) :
    RunsQuietly (pulseEvents h [p]) s (Receiving (later h (p.high + p.low)) p.low done false []) := by
  obtain ⟨-, hp32⟩ := Params.bounds_of_wellFormed hw
  have hwidth : (tickDiff h (later h p.high)).toNat = p.high := tickDiff_later_self (by omega)
  have hlow : effects [.low (later h p.high)] s = lowByteStart (later h p.high) s := by
    rw [effects_cons, effects_nil, effect_low_of_started hr.started,
      onLow_byte_start hr.lastHigh (by omega) (by omega) (by simp [hr.phase]) hr.bitCount]
  have hquiet : RunsQuietly [.low (later h p.high)] s fun _ => True := by
    rw [RunsQuietly, hlow]
    exact ⟨by simp [emitted], trivial⟩
  refine hquiet.append ?_
  rw [hlow]
  exact receiving_of_calibration (s := lowByteStart (later h p.high) s) (done := done) hr.started rfl
    (by simp [lowByteStart, hr.bytes]) rfl rfl rfl (tickDiff_later_add h p.high p.low)

end

/-- A byte-start gap behind fewer bits than nine ends the frame with a BitCountError (R102). -/
theorem Receiving.cut_by_gap {c g : Nat} {odd : Bool} {bits : List Bool} (hr : Receiving h c done odd bits s.dec)
    (hw : s.params.wellFormed = true) (hlen : bits.length ≤ 8) (hgap : s.params.byteStartTicks < g)
    (hgap' : g ≤ s.params.packetStartTicks) :
    emitted s (effect (.low (later h g)) s) = [⟨done ++ [byteOf bits], .bitCountError⟩] ∧
      complete (effect (.low (later h g)) s) = true := by
  obtain ⟨-, hp32⟩ := Params.bounds_of_wellFormed hw
  have hwidth : (tickDiff h (later h g)).toNat = g := tickDiff_later_self (by omega)
  have hcount := hr.bitCount
  rw [effect_low_of_started hr.started, onLow_bitCount_error hr.lastHigh (by omega) (by omega) (by simp [hr.phase])
    (by omega)]
  exact ⟨by simp [emitted, hr.bytes], rfl⟩

/-! ### A packet -/

section
variable {prm : Params} {s : State} {h : Tick} {done : List Byte}

theorem SentByte.fits_iff (b : SentByte) (prm : Params) :
    b.fits prm = true ↔ b.bits.map (Pulse.bit b.start.low) = dataBits b.byte ++ [evenParityBit b.byte] ∧
      (∀ p ∈ b.bits, p.InByte prm) ∧ b.start.low < 2 ^ 32 := by
  simp only [SentByte.fits, Bool.and_eq_true, decide_eq_true_eq, List.all_eq_true, and_assoc]
  rfl

/-- The bits of a sent byte, behind its calibration pulse. -/
theorem Receiving.sent_byte_bits {b : SentByte} (hr : Receiving h b.start.low done false [] s.dec)
    (hw : prm.wellFormed = true) (hprm : s.params = prm) (hfit : b.fits prm = true) :
    RunsQuietly (pulseEvents h b.bits) s (BytesComplete (pulsesEnd h b.bits) (done ++ [b.byte])) := by
  obtain ⟨hbits, hpulses, hc⟩ := (b.fits_iff prm).mp hfit
  have hbyte := hr.nine_pulses_even hw hprm hc hpulses hbits rfl (by rw [parityOf_even]; rfl)
  rwa [byteOf_dataBits] at hbyte

/-- A byte of which the start has been received is received whole. -/
theorem sent_byte_received {b : SentByte} (hw : prm.wellFormed = true) (hprm : s.params = prm)
    (hfit : b.fits prm = true) (hstart : RunsQuietly (pulseEvents h [b.start]) s
      (Receiving (later h (b.start.high + b.start.low)) b.start.low done false [])) :
    RunsQuietly (pulseEvents h (b.start :: b.bits)) s
      (BytesComplete (pulsesEnd h (b.start :: b.bits)) (done ++ [b.byte])) :=
  hstart.append (hstart.2.sent_byte_bits hw ((effects_params_inputs _ _).1.trans hprm) hfit)

/-- The further bytes of a packet are received behind those before them. -/
theorem BytesComplete.packet_rest_received {rest : List SentByte} (hr : BytesComplete h done s.dec)
    (hw : prm.wellFormed = true) (hprm : s.params = prm) (hgaps : ∀ b ∈ rest, b.follows prm = true)
    (hfit : ∀ b ∈ rest, b.fits prm = true) :
    RunsQuietly (pulseEvents h (packetPulses rest)) s
      (BytesComplete (pulsesEnd h (packetPulses rest)) (done ++ rest.map SentByte.byte)) := by
  induction rest generalizing s h done with
  | nil => exact ⟨emitted_self s, by simpa [packetPulses, pulseEvents, pulsesEnd] using hr⟩
  | cons b rest ih =>
    have hgap := hgaps b List.mem_cons_self
    simp only [SentByte.follows, Bool.and_eq_true, decide_eq_true_eq] at hgap
    subst hprm
    have hbyte := sent_byte_received hw rfl (hfit b List.mem_cons_self) (hr.receiving_of_byteStart hw hgap.1 hgap.2)
    have hrest := ih hbyte.2 (effects_params_inputs _ _).1 (fun b' hb' => hgaps b' (List.mem_cons_of_mem b hb'))
      (fun b' hb' => hfit b' (List.mem_cons_of_mem b hb'))
    rw [packetPulses_cons, pulseEvents_append, pulsesEnd_append, List.map_cons, List.append_cons]
    exact hbyte.append hrest

/-- A packet is received, from a started decoder in `Idle`. -/
theorem packet_received {first : SentByte} {rest : List SentByte} (hinv : s.Inv) (hw : s.params.wellFormed = true)
    (hs : s.dec.started = true) (hp : s.dec.phase = .idle) (hh : s.dec.lastHigh = some h)
    (hbegin : first.begins s.params = true) (hgaps : ∀ b ∈ rest, b.follows s.params = true)
    (hfit : ∀ b ∈ first :: rest, b.fits s.params = true) :
    RunsQuietly (pulseEvents h (packetPulses (first :: rest))) s
      (BytesComplete (pulsesEnd h (packetPulses (first :: rest))) ((first :: rest).map SentByte.byte)) := by
  simp only [SentByte.begins, Bool.and_eq_true, decide_eq_true_eq] at hbegin
  have hfirst := sent_byte_received hw rfl (hfit first List.mem_cons_self)
    (receiving_of_packetStart hinv hs hp hh hbegin.1 hbegin.2)
  have hrest := hfirst.2.packet_rest_received hw (effects_params_inputs _ _).1 hgaps
    (fun b hb => hfit b (List.mem_cons_of_mem first hb))
  rw [packetPulses_cons, pulseEvents_append, pulsesEnd_append]
  exact hfirst.append hrest

/-- A TIMEOUT behind complete bytes emits them (R125). -/
theorem BytesComplete.emitted_timeout (hr : BytesComplete h done s.dec) (hne : done ≠ []) :
    emitted s (onTimeout s) = [⟨done, .ok⟩] := by
  simp [emitted, hr.bytes, hne]

/-- A packet-start gap behind complete bytes emits them (R101). -/
theorem BytesComplete.emitted_packetStart (hr : BytesComplete h done s.dec) (hne : done ≠ []) (tick : Tick) :
    emitted s (lowPacketStart tick s) = [⟨done, .ok⟩] := by
  simp [emitted, hr.bytes, hne]

end

/-! ### The generators of R72 -/

/-- The pulses of bits sent by the generator, the first behind a high period `gap`. -/
def timedPulses (p : Timing) (gap : Nat) : List Bool → List Pulse
  | [] => []
  | d :: ds => ⟨gap, pulseWidth p d⟩ :: timedPulses p (p.win - pulseWidth p d) ds

/-- The byte that the generator sends behind a high period `gap`. -/
def timedByte (p : Timing) (gap : Nat) (b : Byte) : SentByte :=
  ⟨b, ⟨gap, p.c⟩, timedPulses p p.c (dataBits b ++ [evenParityBit b])⟩

section
variable {p : Timing} {prm : Params}

/-- The premises of a fitting timing (R200). -/
theorem Timing.fits_iff (p : Timing) (prm : Params) :
    p.fits prm = true ↔ p.c ≤ prm.byteStartTicks ∧ p.one < p.c ∧ p.c ≤ p.zero ∧ p.zero ≤ p.win ∧
      p.win - p.one ≤ prm.byteStartTicks ∧ p.zero < 2 ^ 32 := by
  simp [Timing.fits, and_assoc]

theorem Timing.calibration_lt (hfit : p.fits prm = true) : p.c < 2 ^ 32 := by
  obtain ⟨-, -, hcz, -, -, hz⟩ := (p.fits_iff prm).mp hfit
  omega

theorem pulseWidth_bounds (hfit : p.fits prm = true) (d : Bool) :
    pulseWidth p d ≤ p.win ∧ p.win - pulseWidth p d ≤ prm.byteStartTicks ∧ pulseWidth p d < 2 ^ 32 := by
  obtain ⟨-, hone, hcz, hzw, hgap, hz⟩ := (p.fits_iff prm).mp hfit
  cases d <;> simp only [pulseWidth, if_true, if_false, Bool.false_eq_true] <;> omega

/-- The width of a pulse tells its bit. -/
theorem decide_pulseWidth_lt (hfit : p.fits prm = true) (d : Bool) : decide (pulseWidth p d < p.c) = d := by
  obtain ⟨-, hone, hcz, -⟩ := (p.fits_iff prm).mp hfit
  cases d <;> simp [pulseWidth, hone, hcz]

theorem bitPulses_eq_pulseEvents (hfit : p.fits prm = true) (h : Tick) (gap : Nat) (ds : List Bool) :
    bitPulses p (later h gap) ds = pulseEvents h (timedPulses p gap ds) := by
  induction ds generalizing h gap with
  | nil => rfl
  | cons d ds ih =>
    have hwin : gap + p.win = gap + pulseWidth p d + (p.win - pulseWidth p d) := by
      have := (pulseWidth_bounds hfit d).1
      omega
    rw [bitPulses, timedPulses, pulseEvents, ← ih, later_later, later_later, later_later, hwin]

theorem map_bit_timedPulses (hfit : p.fits prm = true) (gap : Nat) (ds : List Bool) :
    (timedPulses p gap ds).map (Pulse.bit p.c) = ds := by
  induction ds generalizing gap with
  | nil => rfl
  | cons d ds ih => rw [timedPulses, List.map_cons, ih, Pulse.bit, decide_pulseWidth_lt hfit]

theorem length_timedPulses (p : Timing) (gap : Nat) (ds : List Bool) : (timedPulses p gap ds).length = ds.length := by
  induction ds generalizing gap with
  | nil => rfl
  | cons d ds ih => rw [timedPulses, List.length_cons, ih, List.length_cons]

theorem inByte_of_mem_timedPulses (hfit : p.fits prm = true) {gap : Nat} (hgap : gap ≤ prm.byteStartTicks)
    {ds : List Bool} : ∀ q ∈ timedPulses p gap ds, q.InByte prm := by
  induction ds generalizing gap with
  | nil => simp [timedPulses]
  | cons d ds ih =>
    obtain ⟨-, hnext, hlt⟩ := pulseWidth_bounds hfit d
    intro q hq
    rcases List.mem_cons.mp hq with rfl | hq
    · exact ⟨hgap, hlt⟩
    · exact ih hnext q hq

theorem timedByte_fits (hfit : p.fits prm = true) (gap : Nat) (b : Byte) : (timedByte p gap b).fits prm = true :=
  ((timedByte p gap b).fits_iff prm).mpr ⟨map_bit_timedPulses hfit _ _,
    inByte_of_mem_timedPulses hfit ((p.fits_iff prm).mp hfit).1, Timing.calibration_lt hfit⟩

/-- `BYTE(t, b, par)` as pulses. -/
theorem byteTraceWith_eq_pulseEvents (hfit : p.fits prm = true) (h : Tick) (gap : Nat) (b : Byte) (par : Bool) :
    byteTraceWith p (later h gap) b par =
      pulseEvents h (⟨gap, p.c⟩ :: timedPulses p p.c (dataBits b ++ [par])) := by
  rw [byteTraceWith, pulseEvents, ← bitPulses_eq_pulseEvents hfit, later_later, later_later, later_later, two_mul,
    add_assoc]

theorem take_bitPulses (p : Timing) (t : Tick) (ds : List Bool) (k : Nat) :
    (bitPulses p t ds).take (2 * k) = bitPulses p t (ds.take k) := by
  induction ds generalizing t k with
  | nil => simp [bitPulses]
  | cons d ds ih =>
    cases k with
    | zero => rfl
    | succ k => simp [Nat.mul_succ, bitPulses, ih]

/-- `BYTE(t, b)[k bits]` as pulses. -/
theorem byteTraceBits_eq_pulseEvents (hfit : p.fits prm = true) (h : Tick) (gap : Nat) (b : Byte) {k : Nat}
    (hk : k ≤ 8) :
    byteTraceBits p (later h gap) b k = pulseEvents h (⟨gap, p.c⟩ :: timedPulses p p.c ((dataBits b).take k)) := by
  have htake : (dataBits b ++ [evenParityBit b]).take k = (dataBits b).take k :=
    List.take_append_of_le_length (by rwa [length_dataBits])
  rw [pulseEvents, ← bitPulses_eq_pulseEvents hfit, ← htake, ← take_bitPulses, later_later, byteTraceBits, byteTrace,
    byteTraceWith, add_comm 2, List.take_succ_cons, List.take_succ_cons, later_later, later_later, two_mul p.c,
    add_assoc]

theorem getLast?_pulseEvents (h : Tick) (q : Pulse) (qs : List Pulse) :
    (pulseEvents h (q :: qs)).getLast? = some (.high (pulsesEnd h (q :: qs))) := by
  induction qs generalizing h q with
  | nil => rfl
  | cons r rs ih => rw [pulseEvents_cons, List.getLast?_append, ih]; rfl

/-- The end tick of `BYTE(t, b)` is that of its pulses. -/
theorem pulsesEnd_timedByte (hfit : p.fits prm = true) (h : Tick) (gap : Nat) (b : Byte) :
    pulsesEnd h ((timedByte p gap b).start :: (timedByte p gap b).bits) = byteEnd p (later h gap) b := by
  have hlast := byteTraceWith_getLast? p (later h gap) b (evenParityBit b)
  rw [byteTraceWith_eq_pulseEvents hfit, getLast?_pulseEvents] at hlast
  exact Instr.high.inj (Option.some.inj hlast)

/-- The end tick of `BYTE(t, b)[k bits]` is that of its pulses. -/
theorem pulsesEnd_truncated (hfit : p.fits prm = true) (h : Tick) (gap : Nat) (b : Byte) {k : Nat} (hk : k ≤ 8) :
    pulsesEnd h (⟨gap, p.c⟩ :: timedPulses p p.c ((dataBits b).take k)) = byteBitsEnd p (later h gap) b k := by
  have hlast := byteTraceBits_getLast? p (later h gap) b (hk.trans (by decide : 8 ≤ 9))
  rw [byteTraceBits_eq_pulseEvents hfit h gap b hk, getLast?_pulseEvents] at hlast
  exact Instr.high.inj (Option.some.inj hlast)

/-- The bytes of `PACKET(t, bs, g)`, the first behind a high period `gap`. -/
def timedPacket (p : Timing) (gap g : Nat) : List Byte → List SentByte
  | [] => []
  | b :: bs => timedByte p gap b :: timedPacket p g g bs

theorem timedPacket_eq_map (p : Timing) (g : Nat) (bs : List Byte) : timedPacket p g g bs = bs.map (timedByte p g) := by
  induction bs with
  | nil => rfl
  | cons b bs ih => rw [timedPacket, ih, List.map_cons]

theorem packetTrace_eq_pulseEvents (hfit : p.fits prm = true) (h : Tick) (gap g : Nat) (bs : List Byte) :
    packetTrace p (later h gap) bs g = pulseEvents h (packetPulses (timedPacket p gap g bs)) := by
  induction bs generalizing h gap with
  | nil => rfl
  | cons b bs ih =>
    rw [packetTrace, timedPacket, packetPulses_cons, pulseEvents_append, pulsesEnd_timedByte hfit, ← ih, byteTrace,
      byteTraceWith_eq_pulseEvents hfit]
    rfl

theorem packetEnd_eq_pulsesEnd (hfit : p.fits prm = true) (h : Tick) (gap g : Nat) (b : Byte) (bs : List Byte) :
    packetEnd p (later h gap) (b :: bs) g = pulsesEnd h (packetPulses (timedPacket p gap g (b :: bs))) := by
  induction bs generalizing h gap b with
  | nil =>
    rw [timedPacket, packetPulses_cons, pulsesEnd_append, pulsesEnd_timedByte hfit]
    rfl
  | cons b' bs ih =>
    rw [timedPacket, packetPulses_cons, pulsesEnd_append, pulsesEnd_timedByte hfit, ← ih]
    rfl

theorem map_byte_timedPacket (p : Timing) (gap g : Nat) (bs : List Byte) :
    (timedPacket p gap g bs).map SentByte.byte = bs := by
  induction bs generalizing gap with
  | nil => rfl
  | cons b bs ih => rw [timedPacket, List.map_cons, ih]; rfl

end

section
variable {s : State} {h : Tick} {p : Timing}

/-- The generator's bits, up to eight. -/
theorem Receiving.timed_bits {t : Tick} {done : List Byte} {odd : Bool} {ds : List Bool}
    (hr : Receiving h p.c done odd [] s.dec) (hw : s.params.wellFormed = true) (hfit : p.fits s.params = true)
    (hgap : (tickDiff h t).toNat ≤ s.params.byteStartTicks) (hlen : ds.length ≤ 8) :
    RunsQuietly (bitPulses p t ds) s
      (Receiving (pulsesEnd h (timedPulses p (tickDiff h t).toNat ds)) p.c done odd ds) := by
  have hquiet := hr.data_pulses hw rfl (Timing.calibration_lt hfit) (inByte_of_mem_timedPulses hfit hgap (ds := ds))
    (by simpa [length_timedPulses] using hlen)
  rwa [map_bit_timedPulses hfit, List.nil_append, ← bitPulses_eq_pulseEvents hfit, later_tickDiff] at hquiet

/-- Behind eight of the generator's bits a ninth leaves the byte as it is, in the buffer or in the ParityError Frame. -/
theorem Receiving.timed_ninth_bit {t : Tick} {done : List Byte} {odd : Bool} {ds : List Bool}
    (hr : Receiving h p.c done odd [] s.dec) (hw : s.params.wellFormed = true) (hfit : p.fits s.params = true)
    (hgap : (tickDiff h t).toNat ≤ s.params.byteStartTicks) (hlen : ds.length = 8) (d : Bool) :
    ((effects (bitPulses p t (ds ++ [d])) s).dec.bytes = done ++ [byteOf ds] ∧
      emitted s (effects (bitPulses p t (ds ++ [d])) s) = []) ∨
    ((effects (bitPulses p t (ds ++ [d])) s).dec.bytes = [] ∧
      emitted s (effects (bitPulses p t (ds ++ [d])) s) = [⟨done ++ [byteOf ds], .parityError⟩]) := by
  have hin := inByte_of_mem_timedPulses hfit hgap (ds := ds ++ [d])
  have hbits := map_bit_timedPulses hfit (tickDiff h t).toNat (ds ++ [d])
  have hc := Timing.calibration_lt hfit
  have htrace := bitPulses_eq_pulseEvents hfit h (tickDiff h t).toNat (ds ++ [d])
  rw [later_tickDiff] at htrace
  rw [htrace]
  cases hpar : (odd ^^ parityOf (ds ++ [d])) with
  | false =>
    obtain ⟨hquiet, hdone⟩ := hr.nine_pulses_even hw rfl hc hin hbits hlen hpar
    exact .inl ⟨hdone.bytes, hquiet⟩
  | true =>
    obtain ⟨he, hempty, -⟩ := hr.nine_pulses_odd hw rfl hc hin hbits hlen hpar
    exact .inr ⟨hempty, he⟩

/-- Eight bits as a number, the most significant first (R41). -/
theorem byteOf_eight_bits (d1 d2 d3 d4 d5 d6 d7 d8 : Bool) :
    (byteOf [d1, d2, d3, d4, d5, d6, d7, d8]).toNat = d1.toNat * 128 + d2.toNat * 64 + d3.toNat * 32 +
      d4.toNat * 16 + d5.toNat * 8 + d6.toNat * 4 + d7.toNat * 2 + d8.toNat := by
  revert d1 d2 d3 d4 d5 d6 d7 d8; decide

/-- A byte cut short behind a packet-start gap is received up to its last bit. -/
theorem truncated_byte_received {gap k : Nat} {b : Byte} (hinv : s.Inv) (hw : s.params.wellFormed = true)
    (hfit : p.fits s.params = true) (hs : s.dec.started = true) (hp : s.dec.phase = .idle)
    (hh : s.dec.lastHigh = some h) (hstart : s.params.packetStartTicks < gap) (hgap : gap < 2 ^ 32) (hk : k ≤ 8) :
    RunsQuietly (byteTraceBits p (later h gap) b k) s
      (Receiving (byteBitsEnd p (later h gap) b k) p.c [] false ((dataBits b).take k)) := by
  have hfirst := receiving_of_packetStart (p := ⟨gap, p.c⟩) hinv hs hp hh hstart hgap
  have hbits := hfirst.2.data_pulses hw (effects_params_inputs _ _).1 (Timing.calibration_lt hfit)
    (inByte_of_mem_timedPulses hfit ((p.fits_iff _).mp hfit).1 (ds := (dataBits b).take k))
    (by simp [length_timedPulses, hk])
  rw [map_bit_timedPulses hfit, List.nil_append] at hbits
  rw [byteTraceBits_eq_pulseEvents hfit h gap b hk, ← pulsesEnd_truncated hfit h gap b hk, pulseEvents_cons]
  exact hfirst.append hbits

end

/-! ### The statements -/

/-- Settles O50: byte by byte, each pulse adding its bit, the ninth closing the byte. -/
theorem packetOfAnyWidthsReceived : Obligations.PacketOfAnyWidthsReceived := by
  intro s h first rest hinv hw hs hp hh hbegin hgaps hfit
  obtain ⟨hquiet, hr⟩ := packet_received hinv hw hs hp hh hbegin hgaps hfit
  refine ⟨_, execTrace_eq_effects _ s, hquiet, hr.armed, hr.lastHigh, fun late => ?_, fun tick hgap => ?_⟩
  · refine ⟨_, exec_eq_effect _ _, ?_⟩
    rw [effect_timeout_of_started hr.started]
    exact ⟨hr.emitted_timeout (by simp), complete_onTimeout _⟩
  · refine ⟨_, exec_eq_effect _ _, ?_⟩
    rw [← (effects_params_inputs (pulseEvents h (packetPulses (first :: rest))) s).1] at hgap
    rw [effect_low_of_started hr.started, onLow_packet_start hr.lastHigh hgap]
    exact ⟨hr.emitted_packetStart (by simp) tick, rfl, rfl⟩

/-- Settles O41: the generators send pulses of widths that fit. -/
theorem packetReceivedAsSent : Obligations.PacketReceivedAsSent := by
  intro s p h t late bs g hinv hw hfit hs hp hh hstart hg hg' hne
  obtain ⟨b, bs, rfl⟩ := List.exists_cons_of_ne_nil hne
  have hgap := (tickDiff h t).isLt
  rw [← later_tickDiff h t, packetTrace_eq_pulseEvents hfit, packetEnd_eq_pulsesEnd hfit]
  generalize (tickDiff h t).toNat = gap at hstart hgap ⊢
  have hquiet := packet_received (first := timedByte p gap b) (rest := timedPacket p g g bs) hinv hw hs hp hh
    (by simp [SentByte.begins, timedByte, hstart, hgap])
    (by simp [timedPacket_eq_map, SentByte.follows, timedByte, hg, hg'])
    (by simp [timedPacket_eq_map, timedByte_fits hfit])
  rw [← timedPacket, map_byte_timedPacket] at hquiet
  refine ⟨_, execTrace_eq_effects _ s, ?_⟩
  rw [hquiet.emitted_append, effects_append, effects_cons, effects_nil, effect_timeout_of_started hquiet.2.started]
  exact ⟨hquiet.2.emitted_timeout hne, complete_onTimeout _, hquiet.2.lastHigh⟩

/-- Settles O42: the nine bits have odd parity. -/
theorem wrongParityRejected : Obligations.WrongParityRejected := by
  intro s p h t b par hinv hw hfit hs hp hh hstart hpar
  have hgap := (tickDiff h t).isLt
  rw [← later_tickDiff h t, byteTraceWith_eq_pulseEvents hfit, pulseEvents_cons]
  generalize (tickDiff h t).toNat = gap at hstart hgap ⊢
  have hquiet := receiving_of_packetStart (p := ⟨gap, p.c⟩) hinv hs hp hh hstart hgap
  obtain ⟨he, -, hcomplete⟩ := hquiet.2.nine_pulses_odd hw (effects_params_inputs _ _).1 (Timing.calibration_lt hfit)
    (inByte_of_mem_timedPulses hfit ((p.fits_iff _).mp hfit).1) (map_bit_timedPulses hfit p.c _) (length_dataBits b)
    (by rw [parityOf_odd hpar]; rfl)
  rw [byteOf_dataBits] at he
  refine ⟨_, execTrace_eq_effects _ s, ?_⟩
  rw [hquiet.emitted_append, effects_append, he]
  exact ⟨rfl, hcomplete, by simp [temperatureOf, rawOf, accept]⟩

/-- Settles O51: the gap finds `k` bits, which are fewer than nine. -/
theorem truncatedByteRejected : Obligations.TruncatedByteRejected := by
  intro s p h t b k g hinv hw hfit hs hp hh hstart hk hg hg'
  have hgap := (tickDiff h t).isLt
  rw [← later_tickDiff h t]
  generalize (tickDiff h t).toNat = gap at hstart hgap ⊢
  have hquiet := truncated_byte_received (b := b) hinv hw hfit hs hp hh hstart hgap hk
  have hprm := (effects_params_inputs (byteTraceBits p (later h gap) b k) s).1
  obtain ⟨he, hcomplete⟩ := hquiet.2.cut_by_gap (g := g) (hprm ▸ hw) (by simp [hk]) (hprm ▸ hg) (hprm ▸ hg')
  rw [byteOf_take_dataBits b hk] at he
  refine ⟨_, execTrace_eq_effects _ s, ?_⟩
  rw [hquiet.emitted_append, effects_append]
  exact ⟨he, hcomplete⟩

/-- Settles O40: the eight pulses add their bits to the byte; the ninth does not, whatever its parity. -/
theorem bitsReceivedMsbFirst : Obligations.BitsReceivedMsbFirst := by
  intro s p h t done d1 d2 d3 d4 d5 d6 d7 d8 hw hfit hs hp hb hcount hcal hh hgap
  have hr : Receiving h p.c done s.dec.parity [] s.dec := ⟨hs, hp, hb, hcount, by simp [parityOf], hcal, hh⟩
  obtain ⟨hquiet, hr'⟩ := hr.timed_bits (ds := [d1, d2, d3, d4, d5, d6, d7, d8]) hw hfit hgap le_rfl
  refine ⟨_, _, execTrace_eq_effects _ s, hr'.bytes, hr'.bitCount, hr'.phase, hquiet,
    byteOf_eight_bits d1 d2 d3 d4 d5 d6 d7 d8, fun d9 => ⟨_, execTrace_eq_effects _ s, ?_⟩⟩
  exact hr.timed_ninth_bit (ds := [d1, d2, d3, d4, d5, d6, d7, d8]) hw hfit hgap rfl d9

end Sys2Proof.Machine
end

section
/-! SUPPORT. Codes, and which Frames yield a Measurement (30_encoding.md section 4, 45_value_conversion.md sections 1, 2, 4 and
5). -/

namespace Sys2Proof.Machine

/-! ### Acceptance and the raw value (R146, R148) -/

theorem accept_iff (f : Frame) : accept f = true ↔ f.status = .ok ∧ f.bytes.length = 2 := by
  simp [accept]

theorem rawOf_two_bytes (b0 b1 : Byte) : rawOf ⟨[b0, b1], .ok⟩ = some (rawValue b0 b1) := rfl

theorem temperatureOf_two_bytes (p : ProfileName) (b0 b1 : Byte) :
    temperatureOf p ⟨[b0, b1], .ok⟩ = some (convertF64 p (rawValue b0 b1)) := rfl

theorem temperatureOf_of_not_accept {p : ProfileName} {f : Frame} (h : accept f = false) :
    temperatureOf p f = none := by
  simp [temperatureOf, rawOf, h]

/-- An accepted Frame has two bytes and so a raw value. -/
theorem temperatureOf_isSome_iff (p : ProfileName) (f : Frame) :
    (temperatureOf p f).isSome = true ↔ accept f = true := by
  cases h : accept f with
  | false => simp [temperatureOf_of_not_accept h]
  | true =>
    obtain ⟨bytes, status⟩ := f
    obtain ⟨hst, hlen⟩ := (accept_iff _).mp h
    obtain ⟨b0, b1, hbytes⟩ := List.length_eq_two.mp hlen
    obtain rfl : bytes = [b0, b1] := hbytes
    obtain rfl : status = .ok := hst
    simp [temperatureOf_two_bytes]

theorem rawValue_le (b0 b1 : Byte) : rawValue b0 b1 ≤ 65535 := by
  have := b0.isLt
  have := b1.isLt
  rw [rawValue]
  omega

/-- The temperatures sent grow by those of the Frames that an operation emits. -/
theorem temperatures_effect (i : Instr) (s : State) :
    temperatures (effect i s) =
      temperatures s ++ (emitted s (effect i s)).filterMap (temperatureOf s.params.profile) := by
  rw [temperatures, temperatures, framesOf_effect, (effect_params_inputs i s).1, List.filterMap_append]

/-! ### The statements -/

/-- Settles O49: the bound of the three roundings. -/
theorem binaryConversionError : Obligations.BinaryConversionError := fun _ _ hraw =>
  abs_convertF64_sub_convert_le hraw

/-- Settles O43: a TIMEOUT flushes the two bytes as OK, whatever the bit count. -/
theorem okFrameMayEndIncomplete : Obligations.OkFrameMayEndIncomplete := by
  intro s tick b0 b1 hs hb _
  have hemitted : emitted s (effect (.timeout tick) s) = [⟨[b0, b1], .ok⟩] := by
    rw [effect_timeout_of_started hs]
    simp [emitted, hb]
  refine ⟨_, exec_eq_effect _ _, hemitted, ?_⟩
  rw [temperatures_effect, hemitted]
  rfl

/-- Settles O45: by evaluation, code by code. -/
theorem statusAndPhaseCodes : Obligations.StatusAndPhaseCodes := by
  refine ⟨rfl, rfl, rfl, rfl, rfl, rfl, fun x => ?_, fun x => ?_⟩
  · cases x <;> decide
  · cases x <;> decide

/-- Settles O46: the acceptance rule asks for the two bytes that the raw value is made of. -/
theorem acceptedFramesAndRawValue : Obligations.AcceptedFramesAndRawValue :=
  ⟨fun p f => ⟨accept_iff f, temperatureOf_isSome_iff p f⟩,
    fun p b0 b1 => ⟨rawOf_two_bytes b0 b1, temperatureOf_two_bytes p b0 b1, rawValue_le b0 b1⟩⟩

end Sys2Proof.Machine
end
